-- ==== Sys2Proof/Word.lean ====
section
/-! DEFINITION. The word types of the block: the 256-bit word of a register (R6), the 32-bit word of the
host bus and of a command (R8, R9), and a byte. -/

namespace Sys2Proof

/-- A 256-bit register value, a coordinate, a scalar or a field element (R6: `WLEN = 256`). -/
abbrev Word := BitVec 256

/-- One 32-bit word of the register window (R9, R46). -/
abbrev BusWord := BitVec 32

/-- One command word (R8: `CMDLEN = 32`); it is the bus word of a write to `CMD` (R60). -/
abbrev CmdWord := BitVec 32

/-- One byte of the window (R49). -/
abbrev Byte := BitVec 8

end Sys2Proof
end

