-- ==== Sys2Proof/Config.lean ====
section
/-! DEFINITION. The hardwired constants of the block (R10 to R14, R36) and the size of the window (R9). The
spec leaves no value open (file 93: "no `any value` behaviour"), so there is no free value here. -/

namespace Sys2Proof.Config

/-- The field prime, R10: `2^256 - 2^32 - 977`. -/
def p : Nat := 0xFFFFFFFFFFFFFFFFFFFFFFFFFFFFFFFFFFFFFFFFFFFFFFFFFFFFFFFEFFFFFC2F

/-- The curve order, R11. -/
def n : Nat := 0xFFFFFFFFFFFFFFFFFFFFFFFFFFFFFFFEBAAEDCE6AF48A03BBFD25E8CD0364141

/-- The curve constant `B` of `y^2 = x^3 + B`, R12. -/
def curveB : Nat := 7

/-- The generator's x-coordinate, R13. -/
def gx : Nat := 0x79BE667EF9DCBBAC55A06295CE870B07029BFCDB2DCE28D959F2815B16F81798

/-- The generator's y-coordinate, R13. -/
def gy : Nat := 0x483ADA7726A3C4655DA4FBFC0E1108A8FD17B448A68554199C47D08FFB10D4B8

/-- The field square-root exponent `(p + 1) / 4`, R14. -/
def sqrtExp : Nat := (p + 1) / 4

/-- The window's size in bytes, R9. -/
def windowSize : Nat := 0x400

end Sys2Proof.Config
end

