-- ==== Sys2Proof/Syntax.lean ====
section
/-! DEFINITION. The command set `K1CMD-1` (R2, R66, R72): one constructor per row of `spec/opcode_table.json`.
Register indices are decoded (R63: `W0 .. W7`, `PT0 .. PT3`), the two immediates keep their 8 bits (R65).
The operand order is the assembler's (R71). -/

namespace Sys2Proof

/-- The index of a word register, `W0 .. W7` (R31, R63). -/
abbrev WIdx := Fin 8

/-- The index of a point register, `PT0 .. PT3` (R33, R63). -/
abbrev PIdx := Fin 4

/-- The 24 commands of R66. -/
inductive Instr where
  /-- `ADD.P wd, wa, wb` (R82) -/
  | addP (rd ra rb : WIdx)
  /-- `ADD.N wd, wa, wb` (R83) -/
  | addN (rd ra rb : WIdx)
  /-- `SUB.P wd, wa, wb` (R84) -/
  | subP (rd ra rb : WIdx)
  /-- `SUB.N wd, wa, wb` (R85) -/
  | subN (rd ra rb : WIdx)
  /-- `MUL.P wd, wa, wb` (R86) -/
  | mulP (rd ra rb : WIdx)
  /-- `MUL.N wd, wa, wb` (R87) -/
  | mulN (rd ra rb : WIdx)
  /-- `RED.P wd, wa` (R88) -/
  | redP (rd ra : WIdx)
  /-- `RED.N wd, wa` (R89) -/
  | redN (rd ra : WIdx)
  /-- `EQ.P wa, wb` (R90) -/
  | eqP (ra rb : WIdx)
  /-- `EQ.N wa, wb` (R91) -/
  | eqN (ra rb : WIdx)
  /-- `PAR.P wa` (R92) -/
  | parP (ra : WIdx)
  /-- `PAR.N wa` (R93) -/
  | parN (ra : WIdx)
  /-- `MODEXP wd, wa, wb, wc`: destination, base, exponent, modulus (R101) -/
  | modexp (rd ra rb rc : WIdx)
  /-- `INV.P wd, wa` (R102) -/
  | invP (rd ra : WIdx)
  /-- `INV.N wd, wa` (R103) -/
  | invN (rd ra : WIdx)
  /-- `RECOVER pd, wa, wb, wc, #v`: destination, `z`, `r`, `s`, recovery id (R111) -/
  | recover (pd : PIdx) (ra rb rc : WIdx) (v : BitVec 8)
  /-- `ECMUL pd, wa, pb`: destination, scalar, point (R113) -/
  | ecmul (pd : PIdx) (ra : WIdx) (pb : PIdx)
  /-- `MULG pd, wa` (R115) -/
  | mulg (pd : PIdx) (ra : WIdx)
  /-- `ECADD pd, pa, pb` (R119) -/
  | ecadd (pd pa pb : PIdx)
  /-- `TWEAK pd, pa, wb`: destination, point, scalar (R120) -/
  | tweak (pd pa : PIdx) (rb : WIdx)
  /-- `COMPRESS wd, pa` (R130) -/
  | compress (rd : WIdx) (pa : PIdx)
  /-- `DECOMPRESS pd, wa, #par`: `imm` is the 8-bit immediate, whose bit 0 is the parity (R131) -/
  | decompress (pd : PIdx) (ra : WIdx) (imm : BitVec 8)
  /-- `NEGS wd, wa` (R141) -/
  | negs (rd ra : WIdx)
  /-- `NEGP pd, pa` (R142) -/
  | negp (pd pa : PIdx)
  deriving DecidableEq, Repr

end Sys2Proof
end

