-- ==== Sys2Proof/WellFormed.lean ====
section
/-! DEFINITION. Which terms of `Instr` are commands. Register indices are in range by their types (R63), so
the one check left is R64's on the immediate of `DECOMPRESS`: bits 7:1 must be zero. All 8 bits of the
immediate of `RECOVER` are data (R64, R65). -/

namespace Sys2Proof

/-- `i` is a command of the set: it has an encoding (R62, R64). -/
def Instr.wf : Instr → Bool
  | .addP _ _ _ => true
  | .addN _ _ _ => true
  | .subP _ _ _ => true
  | .subN _ _ _ => true
  | .mulP _ _ _ => true
  | .mulN _ _ _ => true
  | .redP _ _ => true
  | .redN _ _ => true
  | .eqP _ _ => true
  | .eqN _ _ => true
  | .parP _ => true
  | .parN _ => true
  | .modexp _ _ _ _ => true
  | .invP _ _ => true
  | .invN _ _ => true
  | .recover _ _ _ _ _ => true
  | .ecmul _ _ _ => true
  | .mulg _ _ => true
  | .ecadd _ _ _ => true
  | .tweak _ _ _ => true
  | .compress _ _ => true
  | .decompress _ _ imm => imm.extractLsb' 1 7 == 0#7
  | .negs _ _ => true
  | .negp _ _ => true

end Sys2Proof
end

