-- ==== Sys2Proof/Decode.lean ====
section
/-! DEFINITION. Decoding and encoding of a command word (R60 to R73): the fields of R61, the formats of R62
with the checks of R63 and R64, the opcode map of R66, the mask-and-match table of R73, and the encoder.
A rejection names its cause; the block reports every one of them as `IllegalCommand` (R67, R152). -/

namespace Sys2Proof

/-! ## Fields (R61) -/

/-- Bits 31:24, the opcode. -/
def fieldOp (c : CmdWord) : BitVec 8 := c.extractLsb' 24 8
/-- Bits 23:20, the destination index. -/
def fieldRd (c : CmdWord) : BitVec 4 := c.extractLsb' 20 4
/-- Bits 19:16, the first source index. -/
def fieldRa (c : CmdWord) : BitVec 4 := c.extractLsb' 16 4
/-- Bits 15:12, the second source index. -/
def fieldRb (c : CmdWord) : BitVec 4 := c.extractLsb' 12 4
/-- Bits 11:8, the third source index. -/
def fieldRc (c : CmdWord) : BitVec 4 := c.extractLsb' 8 4
/-- Bits 7:0, the immediate (R65: unsigned, never extended or scaled). -/
def fieldImm (c : CmdWord) : BitVec 8 := c.extractLsb' 0 8

/-- The word whose six fields are given, the opcode in the top byte (R61). -/
def pack (op : BitVec 8) (rd ra rb rc : BitVec 4) (imm : BitVec 8) : CmdWord :=
  op ++ rd ++ ra ++ rb ++ rc ++ imm

/-! ## Operand checks (R63, R64) -/

/-- Why a word is not a command: R67's three causes, and bytes that are not one whole word (R60, R70). -/
inductive Reject where
  /-- no row of R66 has this opcode -/
  | unassignedOpcode
  /-- a register field is out of range (R63) -/
  | registerOutOfRange
  /-- a field the format marks zero is not (R64) -/
  | unusedFieldNotZero
  /-- fewer than the four bytes of a command word (R60) -/
  | truncatedWord
  deriving DecidableEq, Repr

/-- A field that names a word register holds `0 .. 7` (R63). -/
def wordIndex (f : BitVec 4) : Except Reject WIdx :=
  if h : f.toNat < 8 then .ok ⟨f.toNat, h⟩ else .error .registerOutOfRange

/-- A field that names a point register holds `0 .. 3` (R63). -/
def pointIndex (f : BitVec 4) : Except Reject PIdx :=
  if h : f.toNat < 4 then .ok ⟨f.toNat, h⟩ else .error .registerOutOfRange

/-- A field the format does not use must be zero (R64). -/
def unused {k : Nat} (f : BitVec k) : Except Reject Unit :=
  if f = 0 then .ok () else .error .unusedFieldNotZero

/-! ## Formats (R62) -/

/-- Format `W3`. -/
def decodeW3 (mk : WIdx → WIdx → WIdx → Instr) (c : CmdWord) : Except Reject Instr := do
  let rd ← wordIndex (fieldRd c)
  let ra ← wordIndex (fieldRa c)
  let rb ← wordIndex (fieldRb c)
  unused (fieldRc c)
  unused (fieldImm c)
  return mk rd ra rb

/-- Format `W2`. -/
def decodeW2 (mk : WIdx → WIdx → Instr) (c : CmdWord) : Except Reject Instr := do
  let rd ← wordIndex (fieldRd c)
  let ra ← wordIndex (fieldRa c)
  unused (fieldRb c)
  unused (fieldRc c)
  unused (fieldImm c)
  return mk rd ra

/-- Format `T2`. -/
def decodeT2 (mk : WIdx → WIdx → Instr) (c : CmdWord) : Except Reject Instr := do
  unused (fieldRd c)
  let ra ← wordIndex (fieldRa c)
  let rb ← wordIndex (fieldRb c)
  unused (fieldRc c)
  unused (fieldImm c)
  return mk ra rb

/-- Format `T1`. -/
def decodeT1 (mk : WIdx → Instr) (c : CmdWord) : Except Reject Instr := do
  unused (fieldRd c)
  let ra ← wordIndex (fieldRa c)
  unused (fieldRb c)
  unused (fieldRc c)
  unused (fieldImm c)
  return mk ra

/-- Format `W4`. -/
def decodeW4 (mk : WIdx → WIdx → WIdx → WIdx → Instr) (c : CmdWord) : Except Reject Instr := do
  let rd ← wordIndex (fieldRd c)
  let ra ← wordIndex (fieldRa c)
  let rb ← wordIndex (fieldRb c)
  let rc ← wordIndex (fieldRc c)
  unused (fieldImm c)
  return mk rd ra rb rc

/-- Format `REC`: all 8 bits of the immediate are data. -/
def decodeREC (mk : PIdx → WIdx → WIdx → WIdx → BitVec 8 → Instr) (c : CmdWord) : Except Reject Instr := do
  let pd ← pointIndex (fieldRd c)
  let ra ← wordIndex (fieldRa c)
  let rb ← wordIndex (fieldRb c)
  let rc ← wordIndex (fieldRc c)
  return mk pd ra rb rc (fieldImm c)

/-- Format `PWP`. -/
def decodePWP (mk : PIdx → WIdx → PIdx → Instr) (c : CmdWord) : Except Reject Instr := do
  let pd ← pointIndex (fieldRd c)
  let ra ← wordIndex (fieldRa c)
  let pb ← pointIndex (fieldRb c)
  unused (fieldRc c)
  unused (fieldImm c)
  return mk pd ra pb

/-- Format `PW`. -/
def decodePW (mk : PIdx → WIdx → Instr) (c : CmdWord) : Except Reject Instr := do
  let pd ← pointIndex (fieldRd c)
  let ra ← wordIndex (fieldRa c)
  unused (fieldRb c)
  unused (fieldRc c)
  unused (fieldImm c)
  return mk pd ra

/-- Format `P3`. -/
def decodeP3 (mk : PIdx → PIdx → PIdx → Instr) (c : CmdWord) : Except Reject Instr := do
  let pd ← pointIndex (fieldRd c)
  let pa ← pointIndex (fieldRa c)
  let pb ← pointIndex (fieldRb c)
  unused (fieldRc c)
  unused (fieldImm c)
  return mk pd pa pb

/-- Format `PPW`. -/
def decodePPW (mk : PIdx → PIdx → WIdx → Instr) (c : CmdWord) : Except Reject Instr := do
  let pd ← pointIndex (fieldRd c)
  let pa ← pointIndex (fieldRa c)
  let rb ← wordIndex (fieldRb c)
  unused (fieldRc c)
  unused (fieldImm c)
  return mk pd pa rb

/-- Format `WP`. -/
def decodeWP (mk : WIdx → PIdx → Instr) (c : CmdWord) : Except Reject Instr := do
  let rd ← wordIndex (fieldRd c)
  let pa ← pointIndex (fieldRa c)
  unused (fieldRb c)
  unused (fieldRc c)
  unused (fieldImm c)
  return mk rd pa

/-- Format `PWI`: bit 0 of the immediate is data, bits 7:1 must be zero. -/
def decodePWI (mk : PIdx → WIdx → BitVec 8 → Instr) (c : CmdWord) : Except Reject Instr := do
  let pd ← pointIndex (fieldRd c)
  let ra ← wordIndex (fieldRa c)
  unused (fieldRb c)
  unused (fieldRc c)
  unused ((fieldImm c).extractLsb' 1 7)
  return mk pd ra (fieldImm c)

/-- Format `P2`. -/
def decodeP2 (mk : PIdx → PIdx → Instr) (c : CmdWord) : Except Reject Instr := do
  let pd ← pointIndex (fieldRd c)
  let pa ← pointIndex (fieldRa c)
  unused (fieldRb c)
  unused (fieldRc c)
  unused (fieldImm c)
  return mk pd pa

/-! ## The opcode map (R66) -/

/-- The command a word stands for, or why it stands for none (R66, R67). It depends on the word alone (R69). -/
def decode (c : CmdWord) : Except Reject Instr :=
  match (fieldOp c).toNat with
  | 0x10 => decodeW3 .addP c
  | 0x11 => decodeW3 .addN c
  | 0x12 => decodeW3 .subP c
  | 0x13 => decodeW3 .subN c
  | 0x14 => decodeW3 .mulP c
  | 0x15 => decodeW3 .mulN c
  | 0x16 => decodeW2 .redP c
  | 0x17 => decodeW2 .redN c
  | 0x18 => decodeT2 .eqP c
  | 0x19 => decodeT2 .eqN c
  | 0x1A => decodeT1 .parP c
  | 0x1B => decodeT1 .parN c
  | 0x20 => decodeW4 .modexp c
  | 0x22 => decodeW2 .invP c
  | 0x23 => decodeW2 .invN c
  | 0x30 => decodeREC .recover c
  | 0x31 => decodePWP .ecmul c
  | 0x32 => decodePW .mulg c
  | 0x33 => decodeP3 .ecadd c
  | 0x34 => decodePPW .tweak c
  | 0x40 => decodeWP .compress c
  | 0x41 => decodePWI .decompress c
  | 0x50 => decodeW2 .negs c
  | 0x51 => decodeP2 .negp c
  | _ => .error .unassignedOpcode

/-- The command at the front of a list of bytes, big-endian as the window shows `CMD` (R49), and the bytes
left over. There is one length (R60, R70), so four bytes are always enough. -/
def decodeBytes : List Byte → Except Reject (Instr × List Byte)
  | b0 :: b1 :: b2 :: b3 :: rest => do
    let i ← decode (b0 ++ b1 ++ b2 ++ b3)
    return (i, rest)
  | _ => .error .truncatedWord

/-- The instruction decoded from a command whose bits are `w`, numbered as the opcode table numbers them (bit
0 of the command word is bit 0 of `w`). Every row has 32 bits (R60), and a command is the 32-bit value of the
`CMD` write itself (R57), so no byte order enters. -/
def decodeTableWord (nbits w : Nat) : Option Instr :=
  if nbits ≤ 32 then (decode (BitVec.ofNat 32 (w % 2 ^ nbits))).toOption else none

/-! ## The mask-and-match table (R66, R73) -/

/-- One row of the opcode table. -/
structure Row where
  mnemonic : String
  mask : CmdWord
  pattern : CmdWord
  deriving DecidableEq, Repr

/-- `c` is the command of the row exactly when `c AND mask = match` (R73). -/
def Row.matches (r : Row) (c : CmdWord) : Bool := c &&& r.mask == r.pattern

/-- The opcode map of R66, row by row. -/
def opcodeTable : List Row :=
  [⟨"ADD.P", 0xFF888FFF, 0x10000000⟩, ⟨"ADD.N", 0xFF888FFF, 0x11000000⟩,
   ⟨"SUB.P", 0xFF888FFF, 0x12000000⟩, ⟨"SUB.N", 0xFF888FFF, 0x13000000⟩,
   ⟨"MUL.P", 0xFF888FFF, 0x14000000⟩, ⟨"MUL.N", 0xFF888FFF, 0x15000000⟩,
   ⟨"RED.P", 0xFF88FFFF, 0x16000000⟩, ⟨"RED.N", 0xFF88FFFF, 0x17000000⟩,
   ⟨"EQ.P", 0xFFF88FFF, 0x18000000⟩, ⟨"EQ.N", 0xFFF88FFF, 0x19000000⟩,
   ⟨"PAR.P", 0xFFF8FFFF, 0x1A000000⟩, ⟨"PAR.N", 0xFFF8FFFF, 0x1B000000⟩,
   ⟨"MODEXP", 0xFF8888FF, 0x20000000⟩,
   ⟨"INV.P", 0xFF88FFFF, 0x22000000⟩, ⟨"INV.N", 0xFF88FFFF, 0x23000000⟩,
   ⟨"RECOVER", 0xFFC88800, 0x30000000⟩, ⟨"ECMUL", 0xFFC8CFFF, 0x31000000⟩,
   ⟨"MULG", 0xFFC8FFFF, 0x32000000⟩, ⟨"ECADD", 0xFFCCCFFF, 0x33000000⟩,
   ⟨"TWEAK", 0xFFCC8FFF, 0x34000000⟩,
   ⟨"COMPRESS", 0xFF8CFFFF, 0x40000000⟩, ⟨"DECOMPRESS", 0xFFC8FFFE, 0x41000000⟩,
   ⟨"NEGS", 0xFF88FFFF, 0x50000000⟩, ⟨"NEGP", 0xFFCCFFFF, 0x51000000⟩]

/-- The mnemonic of an instruction, as R66 spells it. -/
def Instr.mnemonic : Instr → String
  | .addP _ _ _ => "ADD.P"
  | .addN _ _ _ => "ADD.N"
  | .subP _ _ _ => "SUB.P"
  | .subN _ _ _ => "SUB.N"
  | .mulP _ _ _ => "MUL.P"
  | .mulN _ _ _ => "MUL.N"
  | .redP _ _ => "RED.P"
  | .redN _ _ => "RED.N"
  | .eqP _ _ => "EQ.P"
  | .eqN _ _ => "EQ.N"
  | .parP _ => "PAR.P"
  | .parN _ => "PAR.N"
  | .modexp _ _ _ _ => "MODEXP"
  | .invP _ _ => "INV.P"
  | .invN _ _ => "INV.N"
  | .recover _ _ _ _ _ => "RECOVER"
  | .ecmul _ _ _ => "ECMUL"
  | .mulg _ _ => "MULG"
  | .ecadd _ _ _ => "ECADD"
  | .tweak _ _ _ => "TWEAK"
  | .compress _ _ => "COMPRESS"
  | .decompress _ _ _ => "DECOMPRESS"
  | .negs _ _ => "NEGS"
  | .negp _ _ => "NEGP"

/-! ## Encoding -/

/-- A word register's nibble. -/
def wNibble (i : WIdx) : BitVec 4 := BitVec.ofNat 4 i.val

/-- A point register's nibble. -/
def pNibble (j : PIdx) : BitVec 4 := BitVec.ofNat 4 j.val

/-- The command word of an instruction, from the opcode map (R66) and the formats (R62). -/
def encode : Instr → CmdWord
  | .addP rd ra rb => pack 0x10 (wNibble rd) (wNibble ra) (wNibble rb) 0 0
  | .addN rd ra rb => pack 0x11 (wNibble rd) (wNibble ra) (wNibble rb) 0 0
  | .subP rd ra rb => pack 0x12 (wNibble rd) (wNibble ra) (wNibble rb) 0 0
  | .subN rd ra rb => pack 0x13 (wNibble rd) (wNibble ra) (wNibble rb) 0 0
  | .mulP rd ra rb => pack 0x14 (wNibble rd) (wNibble ra) (wNibble rb) 0 0
  | .mulN rd ra rb => pack 0x15 (wNibble rd) (wNibble ra) (wNibble rb) 0 0
  | .redP rd ra => pack 0x16 (wNibble rd) (wNibble ra) 0 0 0
  | .redN rd ra => pack 0x17 (wNibble rd) (wNibble ra) 0 0 0
  | .eqP ra rb => pack 0x18 0 (wNibble ra) (wNibble rb) 0 0
  | .eqN ra rb => pack 0x19 0 (wNibble ra) (wNibble rb) 0 0
  | .parP ra => pack 0x1A 0 (wNibble ra) 0 0 0
  | .parN ra => pack 0x1B 0 (wNibble ra) 0 0 0
  | .modexp rd ra rb rc => pack 0x20 (wNibble rd) (wNibble ra) (wNibble rb) (wNibble rc) 0
  | .invP rd ra => pack 0x22 (wNibble rd) (wNibble ra) 0 0 0
  | .invN rd ra => pack 0x23 (wNibble rd) (wNibble ra) 0 0 0
  | .recover pd ra rb rc v => pack 0x30 (pNibble pd) (wNibble ra) (wNibble rb) (wNibble rc) v
  | .ecmul pd ra pb => pack 0x31 (pNibble pd) (wNibble ra) (pNibble pb) 0 0
  | .mulg pd ra => pack 0x32 (pNibble pd) (wNibble ra) 0 0 0
  | .ecadd pd pa pb => pack 0x33 (pNibble pd) (pNibble pa) (pNibble pb) 0 0
  | .tweak pd pa rb => pack 0x34 (pNibble pd) (pNibble pa) (wNibble rb) 0 0
  | .compress rd pa => pack 0x40 (wNibble rd) (pNibble pa) 0 0 0
  | .decompress pd ra imm => pack 0x41 (pNibble pd) (wNibble ra) 0 0 imm
  | .negs rd ra => pack 0x50 (wNibble rd) (wNibble ra) 0 0 0
  | .negp pd pa => pack 0x51 (pNibble pd) (pNibble pa) 0 0 0

end Sys2Proof
end

