-- ==== Sys2Proof/Machine/State.lean ====
section
/-! DEFINITION. The architectural state of the block (R30), the host's side of the run (R45, R178), the ways a
step can stop, and the state after reset (R42, R171). -/

namespace Sys2Proof.Machine

/-- A point register `{inf, x, y}` (R33): any bit pattern, whether it denotes a Point or not. -/
structure PointReg where
  inf : Bool
  x : Word
  y : Word
  deriving DecidableEq, Repr

/-- A Point: the identity `O` or an affine pair of integers (file 00, section 6; R20). -/
inductive Point where
  | O
  | affine (x y : Nat)
  deriving DecidableEq, Repr

/-- The error kinds (R150). Code 0, "none", is no kind. -/
inductive ErrKind where
  | invalidPoint
  | notOnCurve
  | zeroInverse
  | unsupportedDoubling
  | recoveryFailure
  | illegalCommand
  | badModulus
  deriving DecidableEq, Repr

/-- The access widths the window does not admit (R50). -/
inductive OtherWidth where
  | byte
  | halfword
  | wider
  deriving DecidableEq, Repr

/-- What the outside world does to the block, one action at a time (R45, R59, R170). -/
inductive HostAction where
  /-- `HostRead(off)`, a 32-bit read (R47) -/
  | read (off : Nat)
  /-- `HostWrite(off, v)`, a 32-bit write (R48) -/
  | write (off : Nat) (v : BusWord)
  /-- a read or write of another width at `off` (R50: not admitted) -/
  | otherWidth (width : OtherWidth) (off : Nat)
  /-- the reset input, outside the window (R170) -/
  | reset
  deriving DecidableEq, Repr

/-- The block never stops with a fault: "The block cannot get stuck and cannot refuse service" (R162). The type
has no constructor, so nothing raises one (safe: no behaviour of the block is cut off by it). -/
inductive Fault where
  deriving DecidableEq, Repr

/-- Why a step has no next state. -/
inductive Refusal where
  /-- `exec` raises it for a command that has no meaning yet (safe). No command is left so. -/
  | notModelled (mnemonic : String)
  /-- the host's port raises it for an access outside `[0, 0x400)`: R50, "the block's response is unspecified
  … and a model refuses them" (safe) -/
  | outsideWindow
  /-- the host's port raises it for a misaligned 32-bit access inside the window: R50, as above (safe) -/
  | misaligned
  /-- the host's port raises it for an access that is not 32 bits wide: R50, as above (safe) -/
  | widthNotAdmitted
  deriving DecidableEq, Repr

/-- The state. `w`, `pt`, `err`, `t` and `cmd` are the whole architectural state of the block (R30). `host` and
`received` are the model's own (log entries 1 and 2): the host is the agent outside the block whose accesses
drive it (R37, R45), and a step reads its next action from here. -/
structure State where
  /-- the word registers `W0 .. W7` (R31) -/
  w : Vector Word 8
  /-- the point registers `PT0 .. PT3` (R33) -/
  pt : Vector PointReg 4
  /-- `STATUS.ERR` (R38) -/
  err : BitVec 4
  /-- `STATUS.T`, the test flag (R38, R39) -/
  t : Bool
  /-- `CMD`, the last command word written (R40) -/
  cmd : CmdWord
  /-- the host's actions still to come, the next one first (R178) -/
  host : List HostAction
  /-- the words the host's reads have returned, the latest first (R47) -/
  received : List BusWord
  deriving DecidableEq, Repr

/-- The identity as a command writes it: `inf = 1, x = 0, y = 0` (R34, R42). -/
def PointReg.zeroed : PointReg := { inf := true, x := 0, y := 0 }

/-- The state right after reset (R42, R171), with no host action pending and nothing read yet. -/
def State.reset : State where
  w := Vector.replicate 8 0
  pt := Vector.replicate 4 PointReg.zeroed
  err := 0
  t := false
  cmd := 0
  host := []
  received := []

end Sys2Proof.Machine
end

