-- ==== Sys2Proof/Machine/Arith.lean ====
section
/-! DEFINITION. Integer arithmetic of the rules: `mod` on integers that may be negative (R16), modular
exponentiation (R18) and the Fermat inverse (R19). -/

namespace Sys2Proof.Machine

/-- `a mod m` for an integer `a`, the representative in `[0, m)` (R16). -/
def modZ (a : Int) (m : Nat) : Nat := (a % (m : Int)).toNat

/-- Square and multiply, least significant bit first: `acc * b ^ e mod m`, when `k` is at least the bit length
of `e`. How the engine works inside is not observable (R100). -/
def modexpLoop (m : Nat) : (k b e acc : Nat) → Nat
  | 0, _, _, acc => acc
  | k + 1, b, e, acc => modexpLoop m k (b * b % m) (e / 2) (if e % 2 = 1 then acc * b % m else acc)

/-- `modexp(b, e, m) = b ^ e mod m`, with `b ^ 0 = 1` for every `b` (R18). -/
def modexp (b e m : Nat) : Nat := modexpLoop m (e.log2 + 1) (b % m) e (1 % m)

/-- `inv(a, m) = modexp(a mod m, m - 2, m)` for `m` in `{p, n}` (R19). -/
def inv (a m : Nat) : Nat := modexp (a % m) (m - 2) m

end Sys2Proof.Machine
end

