-- ==== Sys2Proof/Machine/Curve.lean ====
section
/-! DEFINITION. The curve functions the commands are stated through: membership (R20), negation (R21), the
group law (R22), scalar multiplication (R23), decompression (R26) and recovery (R110). -/

namespace Sys2Proof.Machine

open Sys2Proof

/-- `on_curve(x, y)` (R20, R12). -/
def onCurve (x y : Nat) : Bool :=
  decide (x < Config.p) && decide (y < Config.p) &&
    (y * y) % Config.p == (x * x * x + Config.curveB) % Config.p

/-- The generator (R13). -/
def gen : Point := .affine Config.gx Config.gy

/-- `ec_neg(P)` (R21). -/
def ecNeg : Point → Point
  | .O => .O
  | .affine x y => .affine x ((Config.p - y) % Config.p)

/-- The third point of the line of slope `lam` through `(x1, y1)` and a point with x-coordinate `x2`, reflected:
the common end of both formulas of R22. -/
def lineSum (lam x1 y1 x2 : Nat) : Point :=
  let x3 := modZ ((lam : Int) * lam - x1 - x2) Config.p
  let y3 := modZ ((lam : Int) * ((x1 : Int) - x3) - y1) Config.p
  .affine x3 y3

/-- The chord slope (R22, R119). -/
def chordSlope (x1 y1 x2 y2 : Nat) : Nat :=
  modZ (((y2 : Int) - y1) * inv (modZ ((x2 : Int) - x1) Config.p) Config.p) Config.p

/-- The tangent slope (R22). -/
def tangentSlope (x1 y1 : Nat) : Nat := (3 * x1 * x1 * inv (2 * y1) Config.p) % Config.p

/-- `ec_add(P, Q)`, the group law (R22). -/
def ecAdd : Point → Point → Point
  | .O, q => q
  | .affine x1 y1, .O => .affine x1 y1
  | .affine x1 y1, .affine x2 y2 =>
    if x1 = x2 ∧ (y1 + y2) % Config.p = 0 then .O
    else if x1 = x2 ∧ y1 = y2 then lineSum (tangentSlope x1 y1) x1 y1 x2
    else lineSum (chordSlope x1 y1 x2 y2) x1 y1 x2

/-- The loop of R23, with `i` bits of `k` still to come and `R` accumulated. -/
def ecMulLoop (k : Nat) (P : Point) : (i : Nat) → (R : Point) → Point
  | 0, R => R
  | i + 1, R =>
    let R2 := ecAdd R R
    ecMulLoop k P i (if k.testBit i then ecAdd R2 P else R2)

/-- `ec_mul(k, P)` for `k` in `[0, 2^256)`, most significant bit first (R23). -/
def ecMul (k : Nat) (P : Point) : Point := ecMulLoop k P 256 .O

/-- `lift_x(x, par)` (R26); `none` is its failure. -/
def liftX (x par : Nat) : Option Point :=
  if x ≥ Config.p then none
  else
    let t := (x * x * x + Config.curveB) % Config.p
    let y := modexp t Config.sqrtExp Config.p
    if (y * y) % Config.p ≠ t then none
    else if y % 2 ≠ par then some (.affine x ((Config.p - y) % Config.p))
    else some (.affine x y)

/-- `recover(z, r, s, v)` (R110); `none` is its failure. -/
def recover (z r s v : Nat) : Option Point :=
  if v ≥ 2 then none
  else if r = 0 ∨ r ≥ Config.n then none
  else if s = 0 ∨ s ≥ Config.n then none
  else
    match liftX r v with
    | none => none
    | some R =>
      let zr := z % Config.n
      let u := inv r Config.n
      some (ecMul u (ecAdd (ecMul s R) (ecNeg (ecMul zr gen))))

end Sys2Proof.Machine
end

