-- ==== Sys2Proof/Machine/Ops.lean ====
section
/-! DEFINITION. The named operations on the registers (R17), the error report (R150, R153) and the completion of
a command. The block has no memory to operate on (R54). -/

namespace Sys2Proof.Machine

open Sys2Proof

/-! ## Registers (R17) -/

/-- `W[i]`. -/
def State.readW (s : State) (i : WIdx) : Word := s.w[i]

/-- `W[i] <- v`. -/
def State.writeW (s : State) (i : WIdx) (v : Word) : State := { s with w := s.w.set i v }

/-- `PT[j]`, the raw record. -/
def State.readPt (s : State) (j : PIdx) : PointReg := s.pt[j]

/-- `PT[j]` set to a raw record. -/
def State.writePt (s : State) (j : PIdx) (r : PointReg) : State := { s with pt := s.pt.set j r }

/-- `T <- b`. -/
def State.setT (s : State) (b : Bool) : State := { s with t := b }

/-- `STATUS.ERR <- e`. -/
def State.setErr (s : State) (e : BitVec 4) : State := { s with err := e }

/-- `CMD <- c`. -/
def State.setCmd (s : State) (c : CmdWord) : State := { s with cmd := c }

/-- A Point as a register holds it: `O` with zero coordinates, a pair with `inf = 0` (R17, R34). -/
def Point.toReg : Point → PointReg
  | .O => PointReg.zeroed
  | .affine x y => { inf := false, x := BitVec.ofNat 256 x, y := BitVec.ofNat 256 y }

/-! ## Ending a command -/

/-- The code of an error kind in `STATUS.ERR` (R150). -/
def ErrKind.code : ErrKind → BitVec 4
  | .invalidPoint => 1
  | .notOnCurve => 2
  | .zeroInverse => 3
  | .unsupportedDoubling => 4
  | .recoveryFailure => 5
  | .illegalCommand => 6
  | .badModulus => 7

/-- `raise E` (R153): the block's whole exception entry (R155). `STATUS.ERR` takes the code and every register
and `T` keep their values. There is nothing to save, no mode to change and no place to go, and so no
return from it either (R156): the next command runs as after any other. -/
def raise (e : ErrKind) (s : State) : Host.Outcome State Fault Refusal :=
  .next (s.setErr e.code)

/-- `return` (R17, R153): the command completes and `STATUS.ERR` becomes 0. -/
def complete (s : State) : Host.Outcome State Fault Refusal :=
  .next (s.setErr 0)

/-- `W[rd] <- v; return`. Every rule's `v` is below `2^256` (R17). -/
def completeWord (rd : WIdx) (v : Nat) (s : State) : Host.Outcome State Fault Refusal :=
  complete (s.writeW rd (BitVec.ofNat 256 v))

/-- `PT[rd] <- P; return`. -/
def completePoint (pd : PIdx) (P : Point) (s : State) : Host.Outcome State Fault Refusal :=
  complete (s.writePt pd P.toReg)

/-- `T <- b; return`. -/
def completeFlag (b : Bool) (s : State) : Host.Outcome State Fault Refusal :=
  complete (s.setT b)

end Sys2Proof.Machine
end

