-- ==== Sys2Proof/Machine/Operands.lean ====
section
/-! DEFINITION. The operand forms: a word register as an integer (R81), as a scalar (R112), a point register as a
Point (R20, R33), and as a non-identity Point (R112). There are no addressing modes (R65). -/

namespace Sys2Proof.Machine

open Sys2Proof

/-- A word operand: the full 256-bit unsigned integer (R81). -/
def State.int (s : State) (i : WIdx) : Nat := (s.readW i).toNat

/-- A scalar operand: the integer reduced modulo `n`, never refused (R112). -/
def State.scalar (s : State) (i : WIdx) : Nat := s.int i % Config.n

/-- The Point a register denotes; `x` and `y` are ignored when `inf = 1` (R33). -/
def PointReg.toPoint (r : PointReg) : Point :=
  if r.inf then .O else .affine r.x.toNat r.y.toNat

/-- `valid(P)` (R20). -/
def PointReg.valid (r : PointReg) : Bool := r.inf || onCurve r.x.toNat r.y.toNat

/-- The coordinates of a register that holds a valid non-identity Point; `none` where a command that needs one
raises `InvalidPoint` (R112). -/
def PointReg.affineCoords (r : PointReg) : Option (Nat × Nat) :=
  if r.inf = false ∧ onCurve r.x.toNat r.y.toNat = true then some (r.x.toNat, r.y.toNat) else none

end Sys2Proof.Machine
end

