-- ==== Sys2Proof/Machine/Flags.lean ====
section
/-! DEFINITION. The one flag of the block, `T` (R39), and the `STATUS` word (R38). No command has a carry,
overflow, zero or sign flag (R94). -/

namespace Sys2Proof.Machine

/-- Equality of canonical forms modulo `m` (R90, R91). -/
def equalMod (m a b : Nat) : Bool := a % m == b % m

/-- Parity of the canonical form modulo `m` (R92, R93). -/
def parityMod (m a : Nat) : Bool := (a % m) % 2 == 1

/-- `STATUS` as the host reads it: `ERR` in bits 3:0, `T` in bit 4, zero above (R38). -/
def State.statusWord (s : State) : BusWord := 0#27 ++ BitVec.ofBool s.t ++ s.err

end Sys2Proof.Machine
end

