-- ==== Sys2Proof/Machine/Codec.lean ====
section
/-! DEFINITION. The point codec (R130 to R132). The byte encodings of R133 are the host's, not the block's. -/

namespace Sys2Proof.Machine

open Sys2Proof

/-- `COMPRESS wd, pa` (R130): `x` into the word register, the parity of `y` into `T`. -/
def execCompress (rd : WIdx) (pa : PIdx) (s : State) : Host.Outcome State Fault Refusal :=
  match (s.readPt pa).affineCoords with
  | none => raise .invalidPoint s
  | some (x, y) => completeWord rd x (s.setT (y % 2 == 1))

/-- `DECOMPRESS pd, wa, #par` (R131): the parity is bit 0 of the immediate. -/
def execDecompress (pd : PIdx) (ra : WIdx) (imm : BitVec 8) (s : State) : Host.Outcome State Fault Refusal :=
  match liftX (s.int ra) (imm.toNat % 2) with
  | none => raise .notOnCurve s
  | some Q => completePoint pd Q s

end Sys2Proof.Machine
end

