-- ==== Sys2Proof/Machine/Exponent.lean ====
section
/-! DEFINITION. The modular exponentiation engine and the inverse service (R100 to R104). -/

namespace Sys2Proof.Machine

open Sys2Proof

/-- `MODEXP wd, wa, wb, wc` (R101). -/
def execModexp (rd ra rb rc : WIdx) (s : State) : Host.Outcome State Fault Refusal :=
  if s.int rc = 0 then raise .badModulus s
  else completeWord rd (modexp (s.int ra) (s.int rb) (s.int rc)) s

/-- The inverse modulo a prime `m`, of the operand reduced first. -/
def inverseMod (m : Nat) (rd ra : WIdx) (s : State) : Host.Outcome State Fault Refusal :=
  let a := s.int ra % m
  if a = 0 then raise .zeroInverse s
  else completeWord rd (inv a m) s

/-- `INV.P wd, wa` (R102). -/
def execInvP (rd ra : WIdx) (s : State) : Host.Outcome State Fault Refusal := inverseMod Config.p rd ra s

/-- `INV.N wd, wa` (R103). -/
def execInvN (rd ra : WIdx) (s : State) : Host.Outcome State Fault Refusal := inverseMod Config.n rd ra s

end Sys2Proof.Machine
end

