-- ==== Sys2Proof/Machine/Field.lean ====
section
/-! DEFINITION. The field arithmetic layer (R80 to R93): every operation once for each modulus (R80). Operands
are full 256-bit integers, sums and products are exact, results are canonical (R81, R94); none can fail. -/

namespace Sys2Proof.Machine

open Sys2Proof

/-- Add modulo `m`. -/
def fieldAdd (m : Nat) (rd ra rb : WIdx) (s : State) : Host.Outcome State Fault Refusal :=
  completeWord rd ((s.int ra + s.int rb) % m) s

/-- Subtract modulo `m`, to the non-negative representative (R16). -/
def fieldSub (m : Nat) (rd ra rb : WIdx) (s : State) : Host.Outcome State Fault Refusal :=
  completeWord rd (modZ ((s.int ra : Int) - s.int rb) m) s

/-- Multiply modulo `m`. -/
def fieldMul (m : Nat) (rd ra rb : WIdx) (s : State) : Host.Outcome State Fault Refusal :=
  completeWord rd ((s.int ra * s.int rb) % m) s

/-- Canonical-reduce modulo `m`. -/
def fieldRed (m : Nat) (rd ra : WIdx) (s : State) : Host.Outcome State Fault Refusal :=
  completeWord rd (s.int ra % m) s

/-- Equality modulo `m`, into `T`. -/
def fieldEqual (m : Nat) (ra rb : WIdx) (s : State) : Host.Outcome State Fault Refusal :=
  completeFlag (equalMod m (s.int ra) (s.int rb)) s

/-- Parity of the canonical form modulo `m`, into `T`. -/
def fieldPar (m : Nat) (ra : WIdx) (s : State) : Host.Outcome State Fault Refusal :=
  completeFlag (parityMod m (s.int ra)) s

/-- `ADD.P` (R82). -/
def execAddP (rd ra rb : WIdx) (s : State) : Host.Outcome State Fault Refusal := fieldAdd Config.p rd ra rb s
/-- `ADD.N` (R83). -/
def execAddN (rd ra rb : WIdx) (s : State) : Host.Outcome State Fault Refusal := fieldAdd Config.n rd ra rb s
/-- `SUB.P` (R84). -/
def execSubP (rd ra rb : WIdx) (s : State) : Host.Outcome State Fault Refusal := fieldSub Config.p rd ra rb s
/-- `SUB.N` (R85). -/
def execSubN (rd ra rb : WIdx) (s : State) : Host.Outcome State Fault Refusal := fieldSub Config.n rd ra rb s
/-- `MUL.P` (R86). -/
def execMulP (rd ra rb : WIdx) (s : State) : Host.Outcome State Fault Refusal := fieldMul Config.p rd ra rb s
/-- `MUL.N` (R87). -/
def execMulN (rd ra rb : WIdx) (s : State) : Host.Outcome State Fault Refusal := fieldMul Config.n rd ra rb s
/-- `RED.P` (R88). -/
def execRedP (rd ra : WIdx) (s : State) : Host.Outcome State Fault Refusal := fieldRed Config.p rd ra s
/-- `RED.N` (R89). -/
def execRedN (rd ra : WIdx) (s : State) : Host.Outcome State Fault Refusal := fieldRed Config.n rd ra s
/-- `EQ.P` (R90). -/
def execEqP (ra rb : WIdx) (s : State) : Host.Outcome State Fault Refusal := fieldEqual Config.p ra rb s
/-- `EQ.N` (R91). -/
def execEqN (ra rb : WIdx) (s : State) : Host.Outcome State Fault Refusal := fieldEqual Config.n ra rb s
/-- `PAR.P` (R92). -/
def execParP (ra : WIdx) (s : State) : Host.Outcome State Fault Refusal := fieldPar Config.p ra s
/-- `PAR.N` (R93). -/
def execParN (ra : WIdx) (s : State) : Host.Outcome State Fault Refusal := fieldPar Config.n ra s

end Sys2Proof.Machine
end

