-- ==== Sys2Proof/Machine/Negation.lean ====
section
/-! DEFINITION. The negation helpers (R140 to R142): both complete for every register content (R140). -/

namespace Sys2Proof.Machine

open Sys2Proof

/-- `NEGS wd, wa` (R141). -/
def execNegs (rd ra : WIdx) (s : State) : Host.Outcome State Fault Refusal :=
  completeWord rd ((Config.n - s.int ra % Config.n) % Config.n) s

/-- `NEGP pd, pa` (R142): nothing is validated; `x` is copied bit for bit, `y` is reduced and negated. -/
def execNegp (pd pa : PIdx) (s : State) : Host.Outcome State Fault Refusal :=
  match (s.readPt pa).toPoint with
  | .O => completePoint pd .O s
  | .affine x y => completePoint pd (.affine x ((Config.p - y % Config.p) % Config.p)) s

end Sys2Proof.Machine
end

