-- ==== Sys2Proof/Machine/Recovery.lean ====
section
/-! DEFINITION. The recovery core and the recovery-based point engine (R110 to R123). The checks stand in the
order of the rules' `raise` statements (R154). -/

namespace Sys2Proof.Machine

open Sys2Proof

/-- The end of a command whose result is `recover` of a tuple: the point, or `RecoveryFailure` (R111). -/
def completeRecovery (pd : PIdx) (Q : Option Point) (s : State) : Host.Outcome State Fault Refusal :=
  match Q with
  | none => raise .recoveryFailure s
  | some Q => completePoint pd Q s

/-- `RECOVER pd, wa, wb, wc, #v` (R111). -/
def execRecover (pd : PIdx) (ra rb rc : WIdx) (v : BitVec 8) (s : State) : Host.Outcome State Fault Refusal :=
  completeRecovery pd (recover (s.int ra) (s.int rb) (s.int rc) v.toNat) s

/-- `ECMUL pd, wa, pb` (R113): the point check, the zero-scalar short-circuit, then `recover`. -/
def execEcmul (pd : PIdx) (ra : WIdx) (pb : PIdx) (s : State) : Host.Outcome State Fault Refusal :=
  match (s.readPt pb).affineCoords with
  | none => raise .invalidPoint s
  | some (x, y) =>
    let k := s.scalar ra
    if k = 0 then completePoint pd .O s
    else completeRecovery pd (recover 0 x ((k * x) % Config.n) (y % 2)) s

/-- `MULG pd, wa` (R115). Its call of `recover` never fails (R116), so its error arm is never reached; the arm
is there because `recover` is an option (log entry 6). -/
def execMulg (pd : PIdx) (ra : WIdx) (s : State) : Host.Outcome State Fault Refusal :=
  let k := s.scalar ra
  if k = 0 then completePoint pd .O s
  else completeRecovery pd (recover 0 Config.gx ((k * Config.gx) % Config.n) (Config.gy % 2)) s

/-- `ECADD pd, pa, pb` (R119): the group sum by the native adder, except for equal operands. -/
def execEcadd (pd pa pb : PIdx) (s : State) : Host.Outcome State Fault Refusal :=
  let P1 := s.readPt pa
  let P2 := s.readPt pb
  if ¬ P1.valid ∨ ¬ P2.valid then raise .invalidPoint s
  else
    match P1.toPoint, P2.toPoint with
    | .O, Q => completePoint pd Q s
    | P, .O => completePoint pd P s
    | .affine x1 y1, .affine x2 y2 =>
      if x1 = x2 ∧ y1 = y2 then raise .unsupportedDoubling s
      else if x1 = x2 then completePoint pd .O s
      else completePoint pd (lineSum (chordSlope x1 y1 x2 y2) x1 y1 x2) s

/-- `TWEAK pd, pa, wb` (R120): one `recover` with `s = r` and `z` the negated `t * r`. -/
def execTweak (pd pa : PIdx) (rb : WIdx) (s : State) : Host.Outcome State Fault Refusal :=
  match (s.readPt pa).affineCoords with
  | none => raise .invalidPoint s
  | some (x, y) =>
    let t := s.scalar rb
    let z := (Config.n - (t * x) % Config.n) % Config.n
    completeRecovery pd (recover z x x (y % 2)) s

end Sys2Proof.Machine
end

