-- ==== Sys2Proof/Machine/Dispatch.lean ====
section
/-! DEFINITION. The dispatch: one arm per command of R66. The command word is in `CMD` already (R69). -/

namespace Sys2Proof.Machine

open Sys2Proof

def exec (i : Instr) (s : State) : Host.Outcome State Fault Refusal :=
  match i with
  | .addP rd ra rb => Sys2Proof.Machine.execAddP rd ra rb s
  | .addN rd ra rb => Sys2Proof.Machine.execAddN rd ra rb s
  | .subP rd ra rb => Sys2Proof.Machine.execSubP rd ra rb s
  | .subN rd ra rb => Sys2Proof.Machine.execSubN rd ra rb s
  | .mulP rd ra rb => Sys2Proof.Machine.execMulP rd ra rb s
  | .mulN rd ra rb => Sys2Proof.Machine.execMulN rd ra rb s
  | .redP rd ra => Sys2Proof.Machine.execRedP rd ra s
  | .redN rd ra => Sys2Proof.Machine.execRedN rd ra s
  | .eqP ra rb => Sys2Proof.Machine.execEqP ra rb s
  | .eqN ra rb => Sys2Proof.Machine.execEqN ra rb s
  | .parP ra => Sys2Proof.Machine.execParP ra s
  | .parN ra => Sys2Proof.Machine.execParN ra s
  | .modexp rd ra rb rc => Sys2Proof.Machine.execModexp rd ra rb rc s
  | .invP rd ra => Sys2Proof.Machine.execInvP rd ra s
  | .invN rd ra => Sys2Proof.Machine.execInvN rd ra s
  | .recover pd ra rb rc v => Sys2Proof.Machine.execRecover pd ra rb rc v s
  | .ecmul pd ra pb => Sys2Proof.Machine.execEcmul pd ra pb s
  | .mulg pd ra => Sys2Proof.Machine.execMulg pd ra s
  | .ecadd pd pa pb => Sys2Proof.Machine.execEcadd pd pa pb s
  | .tweak pd pa rb => Sys2Proof.Machine.execTweak pd pa rb s
  | .compress rd pa => Sys2Proof.Machine.execCompress rd pa s
  | .decompress pd ra imm => Sys2Proof.Machine.execDecompress pd ra imm s
  | .negs rd ra => Sys2Proof.Machine.execNegs rd ra s
  | .negp pd pa => Sys2Proof.Machine.execNegp pd pa s

end Sys2Proof.Machine
end

