-- ==== Sys2Proof/Machine/Window.lean ====
section
/-! DEFINITION. The register window (R46 to R52): which word of which register an offset names, and the content
and the effect of an access to it. -/

namespace Sys2Proof.Machine

open Sys2Proof

/-- What a window word is (R46); `k` numbers the words of a 256-bit register, 0 the most significant. -/
inductive Place where
  | cmd
  | status
  | reserved
  | word (i : WIdx) (k : Fin 8)
  | ptX (j : PIdx) (k : Fin 8)
  | ptY (j : PIdx) (k : Fin 8)
  | ptInf (j : PIdx)
  deriving DecidableEq, Repr

/-- `off` names a window word: naturally aligned and inside `[0, 0x400)` (R50). -/
def admitted (off : Nat) : Bool := off < Config.windowSize && off % 4 == 0

/-- The map of R46, for an offset R50 admits. -/
def place (off : Nat) : Place :=
  if off = 0x000 then .cmd
  else if off = 0x004 then .status
  else if off < 0x100 then .reserved
  else if off < 0x200 then
    .word (Fin.ofNat 8 ((off - 0x100) / 0x20)) (Fin.ofNat 8 ((off - 0x100) % 0x20 / 4))
  else
    let j : PIdx := Fin.ofNat 4 ((off - 0x200) / 0x80)
    let q := (off - 0x200) % 0x80
    if q < 0x20 then .ptX j (Fin.ofNat 8 (q / 4))
    else if q < 0x40 then .ptY j (Fin.ofNat 8 ((q - 0x20) / 4))
    else if q = 0x40 then .ptInf j
    else .reserved

/-- Word `k` of a register: bits `255 - 32 k` down to `224 - 32 k` (R46, R49). -/
def wordSlice (v : Word) (k : Fin 8) : BusWord := v.extractLsb' (224 - 32 * k.val) 32

/-- Word `k` replaced, the other 224 bits kept (R48). -/
def setWordSlice (v : Word) (k : Fin 8) (d : BusWord) : Word :=
  (v &&& ~~~((BitVec.allOnes 32).setWidth 256 <<< (224 - 32 * k.val))) ||| (d.setWidth 256 <<< (224 - 32 * k.val))

/-- The content of a window word (R46, R38, R40, R52). -/
def State.readPlace (s : State) : Place → BusWord
  | .cmd => s.cmd
  | .status => s.statusWord
  | .reserved => 0
  | .word i k => wordSlice (s.readW i) k
  | .ptX j k => wordSlice (s.readPt j).x k
  | .ptY j k => wordSlice (s.readPt j).y k
  | .ptInf j => (BitVec.ofBool (s.readPt j).inf).setWidth 32

/-- The effect of a write to a window word on the registers (R48). The command that a write to `CMD` runs is
`issue`; here `CMD` only takes the value. `STATUS` and reserved words ignore the write (R38, R52). -/
def State.writePlace (s : State) (v : BusWord) : Place → State
  | .cmd => s.setCmd v
  | .status => s
  | .reserved => s
  | .word i k => s.writeW i (setWordSlice (s.readW i) k v)
  | .ptX j k => s.writePt j { s.readPt j with x := setWordSlice (s.readPt j).x k v }
  | .ptY j k => s.writePt j { s.readPt j with y := setWordSlice (s.readPt j).y k v }
  | .ptInf j => s.writePt j { s.readPt j with inf := v.getLsbD 0 }

/-- The byte at an address of the window: the bytes of a word stand big-endian (R49). -/
def State.windowByte (s : State) (addr : Nat) : Byte :=
  (s.readPlace (place (addr - addr % 4))).extractLsb' (24 - 8 * (addr % 4)) 8

end Sys2Proof.Machine
end

