-- ==== Sys2Proof/Machine/HostPort.lean ====
section
/-! DEFINITION. What one action of the host does (R45 to R50, R69, R170). A command runs atomically inside the
write to `CMD` (R48, R175). -/

namespace Sys2Proof.Machine

open Sys2Proof

/-- A write of `c` to `CMD` (R69): `CMD <- c`, then the command is decoded and executed; a word that is no command
raises `IllegalCommand` (R67, R160). -/
def issue (c : CmdWord) (s : State) : Host.Outcome State Fault Refusal :=
  match decode c with
  | .error _ => raise .illegalCommand (s.setCmd c)
  | .ok i => exec i (s.setCmd c)

/-- The refusal of a 32-bit access at an offset R50 does not admit. -/
def accessRefusal (off : Nat) : Refusal :=
  if off < Config.windowSize then .misaligned else .outsideWindow

/-- `HostRead(off)` (R47): the content is delivered to the host and nothing else changes. -/
def hostRead (off : Nat) (s : State) : Host.Outcome State Fault Refusal :=
  if admitted off then .next { s with received := s.readPlace (place off) :: s.received }
  else .refused (accessRefusal off)

/-- `HostWrite(off, v)` (R48). -/
def hostWrite (off : Nat) (v : BusWord) (s : State) : Host.Outcome State Fault Refusal :=
  if admitted off then
    match place off with
    | .cmd => issue v s
    | pl => .next (s.writePlace v pl)
  else .refused (accessRefusal off)

/-- The reset input (R171): every register of the block takes its reset value; the host is not part of the
block and keeps its list. -/
def State.resetBlock (s : State) : State :=
  { State.reset with host := s.host, received := s.received }

/-- One action of the host. -/
def hostAct (a : HostAction) (s : State) : Host.Outcome State Fault Refusal :=
  match a with
  | .read off => hostRead off s
  | .write off v => hostWrite off v s
  | .otherWidth _ _ => .refused .widthNotAdmitted
  | .reset => .next s.resetBlock

/-- One step of the block and its host: the host's next action, taken off its list. With no action to come the
block does nothing on its own (R45, R178). -/
def hostStep (s : State) : Host.Outcome State Fault Refusal :=
  match s.host with
  | [] => .next s
  | a :: rest => hostAct a { s with host := rest }

end Sys2Proof.Machine
end

