-- ==== Sys2Proof/Machine/Step.lean ====
section
/-! DEFINITION. The step of the machine, and how the host of the pipeline places a command to run next. -/

namespace Sys2Proof.Machine

open Sys2Proof

/-- One step: the next action of the bus host (R45, R55). -/
def step (s : State) : Host.Outcome State Fault Refusal := hostStep s

/-- The state whose very next step runs the command with the bits `w`: a write of that word to `CMD` is put in
front of the host's actions (R37, R40). -/
def State.withFetchWord (s : State) (nbits w : Nat) : State :=
  { s with host := .write 0x000 (BitVec.ofNat 32 (w % 2 ^ nbits)) :: s.host }

end Sys2Proof.Machine
end

