-- ==== Sys2Proof/Safety.lean ====
section
/-! DEFINITION. The terms the claims use: which host actions are admitted, which values of the state are legal,
what a command reads and writes, and what it means that nothing else changed. -/

namespace Sys2Proof.Machine

open Sys2Proof

/-! ## Legal host actions and legal states -/

/-- An action the spec gives the host: a 32-bit access R50 admits, or the reset input (R170). -/
def HostAction.isAdmitted : HostAction → Bool
  | .read off => admitted off
  | .write off _ => admitted off
  | .otherWidth _ _ => false
  | .reset => true

/-- `ERR` holds a code of R150: "codes 8 .. 15 never occur" (R38). -/
def State.errLegal (s : State) : Prop := s.err.toNat ≤ 7

/-- Every point register holds a valid Point (R20, R33). -/
def State.pointsValid (s : State) : Prop := ∀ j : PIdx, (s.readPt j).valid = true

/-- A valid Point as an integer value: the identity or a point of the curve (R20). -/
def Point.onE : Point → Prop
  | .O => True
  | .affine x y => onCurve x y = true

/-- `a` is a square modulo `p` (a quadratic residue or 0). -/
def IsSquareModP (a : Nat) : Prop := ∃ y, y < Config.p ∧ (y * y) % Config.p = a % Config.p

end Sys2Proof.Machine

namespace Sys2Proof

/-! ## The footprint of a command (R32, R35, R38) -/

/-- The word register a command may write (R32). -/
def Instr.wordDest : Instr → Option WIdx
  | .addP rd _ _ => some rd
  | .addN rd _ _ => some rd
  | .subP rd _ _ => some rd
  | .subN rd _ _ => some rd
  | .mulP rd _ _ => some rd
  | .mulN rd _ _ => some rd
  | .redP rd _ => some rd
  | .redN rd _ => some rd
  | .eqP _ _ => none
  | .eqN _ _ => none
  | .parP _ => none
  | .parN _ => none
  | .modexp rd _ _ _ => some rd
  | .invP rd _ => some rd
  | .invN rd _ => some rd
  | .recover _ _ _ _ _ => none
  | .ecmul _ _ _ => none
  | .mulg _ _ => none
  | .ecadd _ _ _ => none
  | .tweak _ _ _ => none
  | .compress rd _ => some rd
  | .decompress _ _ _ => none
  | .negs rd _ => some rd
  | .negp _ _ => none

/-- The point register a command may write (R35). -/
def Instr.pointDest : Instr → Option PIdx
  | .addP _ _ _ => none
  | .addN _ _ _ => none
  | .subP _ _ _ => none
  | .subN _ _ _ => none
  | .mulP _ _ _ => none
  | .mulN _ _ _ => none
  | .redP _ _ => none
  | .redN _ _ => none
  | .eqP _ _ => none
  | .eqN _ _ => none
  | .parP _ => none
  | .parN _ => none
  | .modexp _ _ _ _ => none
  | .invP _ _ => none
  | .invN _ _ => none
  | .recover pd _ _ _ _ => some pd
  | .ecmul pd _ _ => some pd
  | .mulg pd _ => some pd
  | .ecadd pd _ _ => some pd
  | .tweak pd _ _ => some pd
  | .compress _ _ => none
  | .decompress pd _ _ => some pd
  | .negs _ _ => none
  | .negp pd _ => some pd

/-- The commands that write `T`: `EQ.P EQ.N PAR.P PAR.N COMPRESS` (R38). -/
def Instr.writesFlag : Instr → Bool
  | .addP _ _ _ => false
  | .addN _ _ _ => false
  | .subP _ _ _ => false
  | .subN _ _ _ => false
  | .mulP _ _ _ => false
  | .mulN _ _ _ => false
  | .redP _ _ => false
  | .redN _ _ => false
  | .eqP _ _ => true
  | .eqN _ _ => true
  | .parP _ => true
  | .parN _ => true
  | .modexp _ _ _ _ => false
  | .invP _ _ => false
  | .invN _ _ => false
  | .recover _ _ _ _ _ => false
  | .ecmul _ _ _ => false
  | .mulg _ _ => false
  | .ecadd _ _ _ => false
  | .tweak _ _ _ => false
  | .compress _ _ => true
  | .decompress _ _ _ => false
  | .negs _ _ => false
  | .negp _ _ => false

/-- The word registers a command reads (R32). -/
def Instr.wordSources : Instr → List WIdx
  | .addP _ ra rb => [ra, rb]
  | .addN _ ra rb => [ra, rb]
  | .subP _ ra rb => [ra, rb]
  | .subN _ ra rb => [ra, rb]
  | .mulP _ ra rb => [ra, rb]
  | .mulN _ ra rb => [ra, rb]
  | .redP _ ra => [ra]
  | .redN _ ra => [ra]
  | .eqP ra rb => [ra, rb]
  | .eqN ra rb => [ra, rb]
  | .parP ra => [ra]
  | .parN ra => [ra]
  | .modexp _ ra rb rc => [ra, rb, rc]
  | .invP _ ra => [ra]
  | .invN _ ra => [ra]
  | .recover _ ra rb rc _ => [ra, rb, rc]
  | .ecmul _ ra _ => [ra]
  | .mulg _ ra => [ra]
  | .ecadd _ _ _ => []
  | .tweak _ _ rb => [rb]
  | .compress _ _ => []
  | .decompress _ ra _ => [ra]
  | .negs _ ra => [ra]
  | .negp _ _ => []

/-- The point registers a command reads (R35). -/
def Instr.pointSources : Instr → List PIdx
  | .addP _ _ _ => []
  | .addN _ _ _ => []
  | .subP _ _ _ => []
  | .subN _ _ _ => []
  | .mulP _ _ _ => []
  | .mulN _ _ _ => []
  | .redP _ _ => []
  | .redN _ _ => []
  | .eqP _ _ => []
  | .eqN _ _ => []
  | .parP _ => []
  | .parN _ => []
  | .modexp _ _ _ _ => []
  | .invP _ _ => []
  | .invN _ _ => []
  | .recover _ _ _ _ _ => []
  | .ecmul _ _ pb => [pb]
  | .mulg _ _ => []
  | .ecadd _ pa pb => [pa, pb]
  | .tweak _ pa _ => [pa]
  | .compress _ pa => [pa]
  | .decompress _ _ _ => []
  | .negs _ _ => []
  | .negp _ pa => [pa]

end Sys2Proof

namespace Sys2Proof.Machine

open Sys2Proof

/-! ## What changed -/

/-- The parts of the state no command writes: `CMD` (written before it runs, R69) and the host's side. -/
def SameOutside (s t : State) : Prop := t.cmd = s.cmd ∧ t.host = s.host ∧ t.received = s.received

/-- `t` is `s` after a command that completed with `v` in `W[d]` and changed nothing else. -/
def WroteWord (s t : State) (d : WIdx) (v : Nat) : Prop :=
  (t.readW d).toNat = v ∧ (∀ i, i ≠ d → t.readW i = s.readW i) ∧ t.pt = s.pt ∧ t.t = s.t ∧ t.err = 0 ∧
    SameOutside s t

/-- `t` is `s` after a command that completed with the record `r` in `PT[d]` and changed nothing else. -/
def WrotePoint (s t : State) (d : PIdx) (r : PointReg) : Prop :=
  t.readPt d = r ∧ (∀ j, j ≠ d → t.readPt j = s.readPt j) ∧ t.w = s.w ∧ t.t = s.t ∧ t.err = 0 ∧
    SameOutside s t

/-- `t` is `s` after a command that completed with `b` in `T` and changed nothing else. -/
def WroteFlag (s t : State) (b : Bool) : Prop :=
  t.t = b ∧ t.w = s.w ∧ t.pt = s.pt ∧ t.err = 0 ∧ SameOutside s t

/-- The command completes, and its next state is one that `Q` holds of. -/
def Completes (i : Instr) (s : State) (Q : State → Prop) : Prop := ∃ t, exec i s = .next t ∧ Q t

/-- The command fails with the error code `e` and changes nothing else (R153). -/
def Fails (i : Instr) (s : State) (e : BitVec 4) : Prop := exec i s = .next { s with err := e }

end Sys2Proof.Machine
end

