-- ==== Sys2Proof/Certificates/Slice0/Obligations.lean ====
section
/-! DEFINITION. The statements about the model, for the provers. Each docstring names the rules it rests on. -/

open Sys2Proof Sys2Proof.Machine

/-! ## Reset and constants -/

/-- R42: the value of every piece of state after reset. -/
def Obligations.ResetLeavesTheStatedValues : Prop :=
  (∀ i, State.reset.readW i = 0) ∧ (∀ j, State.reset.readPt j = { inf := true, x := 0, y := 0 }) ∧
    State.reset.err = 0 ∧ State.reset.t = false ∧ State.reset.cmd = 0

/-- R170, R171: the reset input puts the whole block into its reset state, whatever it held. That the host keeps its
list and what it has read is the model's choice (log entries 1 and 2). -/
def Obligations.ResetInputResetsTheBlock : Prop :=
  ∀ (s : State) (rest : List HostAction),
    step { s with host := .reset :: rest } =
      .next { State.reset with host := rest, received := s.received }

/-- R10 to R14: the values of all the wired constants, and what is said of them. -/
def Obligations.WiredConstantsAsStated : Prop :=
  Config.p = 2 ^ 256 - 2 ^ 32 - 977 ∧
    Config.p = 0xFFFFFFFFFFFFFFFFFFFFFFFFFFFFFFFFFFFFFFFFFFFFFFFFFFFFFFFEFFFFFC2F ∧
    Config.p % 4 = 3 ∧ Nat.Prime Config.p ∧
    Config.n = 0xFFFFFFFFFFFFFFFFFFFFFFFFFFFFFFFEBAAEDCE6AF48A03BBFD25E8CD0364141 ∧ Nat.Prime Config.n ∧
    Config.n < Config.p ∧ Config.p - Config.n = 0x14551231950B75FC4402DA1722FC9BAEE ∧
    Config.curveB = 7 ∧
    Config.gx = 0x79BE667EF9DCBBAC55A06295CE870B07029BFCDB2DCE28D959F2815B16F81798 ∧
    Config.gy = 0x483ADA7726A3C4655DA4FBFC0E1108A8FD17B448A68554199C47D08FFB10D4B8 ∧
    gen = .affine Config.gx Config.gy ∧ onCurve Config.gx Config.gy = true ∧ Config.gx < Config.n ∧ Config.gy % 2 = 0 ∧
    Config.p - 2 = 0xFFFFFFFFFFFFFFFFFFFFFFFFFFFFFFFFFFFFFFFFFFFFFFFFFFFFFFFEFFFFFC2D ∧
    Config.n - 2 = 0xFFFFFFFFFFFFFFFFFFFFFFFFFFFFFFFEBAAEDCE6AF48A03BBFD25E8CD036413F ∧
    Config.sqrtExp = (Config.p + 1) / 4 ∧
    Config.sqrtExp = 0x3FFFFFFFFFFFFFFFFFFFFFFFFFFFFFFFFFFFFFFFFFFFFFFFFFFFFFFFBFFFFF0C

/-! ## Encoding -/

/-- R61 to R66: decoding the word of a well-formed command gives it back, with every operand at every value. -/
def Obligations.DecodeOfEncodeIsTheCommand : Prop :=
  ∀ i : Instr, i.wf = true → decode (encode i) = .ok i

/-- R64, R66: every word that decodes is the encoding of the one well-formed command it decodes to, so no bit of it
is ignored. -/
def Obligations.EncodeOfDecodeIsTheWord : Prop :=
  ∀ (c : CmdWord) (i : Instr), decode c = .ok i → i.wf = true ∧ encode i = c

/-- R66, R73: a word is the command of a row exactly when its masked bits are the row's pattern. -/
def Obligations.DecodeIsTheMaskTable : Prop :=
  ∀ (c : CmdWord) (r : Row), r ∈ opcodeTable →
    (c &&& r.mask = r.pattern ↔ ∃ i, decode c = .ok i ∧ i.mnemonic = r.mnemonic)

/-- R69: the masks make the rows mutually exclusive. -/
def Obligations.OpcodeRowsExclude : Prop :=
  ∀ (c : CmdWord) (q r : Row), q ∈ opcodeTable → r ∈ opcodeTable →
    c &&& q.mask = q.pattern → c &&& r.mask = r.pattern → q = r

/-- R80, R61: bit 24 of the word selects the modulus of the paired commands. -/
def Obligations.BitTwentyFourSelectsTheModulus : Prop :=
  ∀ rd ra rb : WIdx,
    encode (.addN rd ra rb) = encode (.addP rd ra rb) ||| 0x01000000 ∧
    encode (.subN rd ra rb) = encode (.subP rd ra rb) ||| 0x01000000 ∧
    encode (.mulN rd ra rb) = encode (.mulP rd ra rb) ||| 0x01000000 ∧
    encode (.redN rd ra) = encode (.redP rd ra) ||| 0x01000000 ∧
    encode (.eqN ra rb) = encode (.eqP ra rb) ||| 0x01000000 ∧
    encode (.parN ra) = encode (.parP ra) ||| 0x01000000 ∧
    encode (.invN rd ra) = encode (.invP rd ra) ||| 0x01000000

/-- The words the rules' examples print decode to the commands they stand for (R82, R90, R92, R101, R102, R111,
R113, R115, R119, R120, R130, R131, R141, R142). -/
def Obligations.PrintedWordsDecode : Prop :=
  decode 0x10201000 = .ok (.addP 2 0 1) ∧ decode 0x18001000 = .ok (.eqP 0 1) ∧
    decode 0x1A000000 = .ok (.parP 0) ∧ decode 0x20301200 = .ok (.modexp 3 0 1 2) ∧
    decode 0x22100000 = .ok (.invP 1 0) ∧ decode 0x30001202 = .ok (.recover 0 0 1 2 2) ∧
    decode 0x31100000 = .ok (.ecmul 1 0 0) ∧ decode 0x32000000 = .ok (.mulg 0 0) ∧
    decode 0x33201000 = .ok (.ecadd 2 0 1) ∧ decode 0x34100000 = .ok (.tweak 1 0 0) ∧
    decode 0x40100000 = .ok (.compress 1 0) ∧ decode 0x41110001 = .ok (.decompress 1 1 1) ∧
    decode 0x50100000 = .ok (.negs 1 0) ∧ decode 0x51100000 = .ok (.negp 1 0)

/-! ## Steps and the host's port -/

/-- R48, R69: a write of a command word to `CMD` stores the word and runs the decoded command, which is all the step
does besides taking the action off the host's list; and a word placed by `withFetchWord` runs so next. -/
def Obligations.CmdWriteRunsTheDecodedCommand : Prop :=
  ∀ (s : State) (c : CmdWord) (i : Instr) (rest : List HostAction), decode c = .ok i →
    step { s with host := .write 0x000 c :: rest } = exec i { s with cmd := c, host := rest } ∧
    step (s.withFetchWord 32 c.toNat) = exec i { s with cmd := c }

/-- R160: a word that matches no row is stored in `CMD`, reports code 6 and changes nothing else. (That the step takes
the write off the list `host` is the model's way to run a host, log entry 1.) -/
def Obligations.IllegalWordReportsSixOnly : Prop :=
  ∀ (s : State) (c : CmdWord) (rest : List HostAction), (∀ r ∈ opcodeTable, c &&& r.mask ≠ r.pattern) →
    step { s with host := .write 0x000 c :: rest } = .next { s with cmd := c, err := 6, host := rest }

/-- R45 ("it does nothing on its own"): with no host action to come a step changes nothing. That such a step exists
is the model's choice (log entry 3). -/
def Obligations.CoreIsIdleWithoutTheHost : Prop :=
  ∀ s : State, s.host = [] → step s = .next s

/-- R47 with the map of R46: what a read returns, and that it changes nothing of the block. That the word is kept in
`received`, and that a step takes the read off the list `host`, are the model's choices (log entries 2 and 1): R47
names no place for the word. -/
def Obligations.HostReadReturnsTheMappedWord : Prop :=
  ∀ (s : State) (off : Nat) (rest : List HostAction), off % 4 = 0 → off < 0x400 →
    ∃ v : BusWord,
      step { s with host := .read off :: rest } = .next { s with host := rest, received := v :: s.received } ∧
      (off = 0x000 → v = s.cmd) ∧
      (off = 0x004 → v.toNat = s.err.toNat + 16 * s.t.toNat) ∧
      (0x008 ≤ off → off ≤ 0x0FC → v = 0) ∧
      (∀ i k : Fin 8, off = 0x100 + 0x20 * i.val + 4 * k.val →
        v = (s.readW i).extractLsb' (224 - 32 * k.val) 32) ∧
      (∀ (j : Fin 4) (k : Fin 8), off = 0x200 + 0x80 * j.val + 4 * k.val →
        v = (s.readPt j).x.extractLsb' (224 - 32 * k.val) 32) ∧
      (∀ (j : Fin 4) (k : Fin 8), off = 0x220 + 0x80 * j.val + 4 * k.val →
        v = (s.readPt j).y.extractLsb' (224 - 32 * k.val) 32) ∧
      (∀ j : Fin 4, off = 0x240 + 0x80 * j.val → v.toNat = (s.readPt j).inf.toNat) ∧
      (∀ j : Fin 4, 0x244 + 0x80 * j.val ≤ off → off ≤ 0x27C + 0x80 * j.val → v = 0)

/-- `u` is `v` with its 32-bit word `k` replaced by `d` (R48). -/
def Sys2Proof.Machine.SliceReplaced (v u : Word) (k : Fin 8) (d : BusWord) : Prop :=
  u.extractLsb' (224 - 32 * k.val) 32 = d ∧
    ∀ l : Fin 8, l ≠ k → u.extractLsb' (224 - 32 * l.val) 32 = v.extractLsb' (224 - 32 * l.val) 32

/-- R48: the effect of a write, offset by offset. (That the step takes the write off the list `host` is the model's way
to run a host, log entry 1.) -/
def Obligations.HostWriteHasTheMappedEffect : Prop :=
  ∀ (s : State) (d : BusWord) (rest : List HostAction),
    (∀ i k : Fin 8, ∃ u, SliceReplaced (s.readW i) u k d ∧
      step { s with host := .write (0x100 + 0x20 * i.val + 4 * k.val) d :: rest } =
        .next { s with host := rest, w := s.w.set i u }) ∧
    (∀ (j : Fin 4) (k : Fin 8), ∃ u, SliceReplaced (s.readPt j).x u k d ∧
      step { s with host := .write (0x200 + 0x80 * j.val + 4 * k.val) d :: rest } =
        .next { s with host := rest, pt := s.pt.set j { s.readPt j with x := u } }) ∧
    (∀ (j : Fin 4) (k : Fin 8), ∃ u, SliceReplaced (s.readPt j).y u k d ∧
      step { s with host := .write (0x220 + 0x80 * j.val + 4 * k.val) d :: rest } =
        .next { s with host := rest, pt := s.pt.set j { s.readPt j with y := u } }) ∧
    (∀ j : Fin 4, step { s with host := .write (0x240 + 0x80 * j.val) d :: rest } =
      .next { s with host := rest, pt := s.pt.set j { s.readPt j with inf := d.getLsbD 0 } }) ∧
    step { s with host := .write 0x004 d :: rest } = .next { s with host := rest } ∧
    (∀ off, off % 4 = 0 →
      (0x008 ≤ off ∧ off ≤ 0x0FC ∨ ∃ j : Fin 4, 0x244 + 0x80 * j.val ≤ off ∧ off ≤ 0x27C + 0x80 * j.val) →
      step { s with host := .write off d :: rest } = .next { s with host := rest }) ∧
    (∀ i, decode d = .ok i →
      step { s with host := .write 0x000 d :: rest } = exec i { s with cmd := d, host := rest }) ∧
    (∀ e, decode d = .error e →
      step { s with host := .write 0x000 d :: rest } = .next { s with cmd := d, err := 6, host := rest })

/-- R48, R51, R55: a write to any word but `CMD` leaves the content of every other word. -/
def Obligations.WindowWriteLeavesOtherWords : Prop :=
  ∀ (s t : State) (a b : Nat) (d : BusWord) (rest : List HostAction), admitted a = true → admitted b = true →
    a ≠ 0x000 → a ≠ b → step { s with host := .write a d :: rest } = .next t →
      t.readPlace (place b) = s.readPlace (place b)

/-- R46, R50, R55: eight writes, most significant word first, load a word register and change nothing else. -/
def Obligations.EightWritesLoadAWordRegister : Prop :=
  ∀ (s : State) (i : WIdx) (v : Word) (rest : List HostAction),
    Host.Core.run Sys2Proof.core 8
      { s with host := (List.finRange 8).map (fun k : Fin 8 =>
          HostAction.write (0x100 + 0x20 * i.val + 4 * k.val) (v.extractLsb' (224 - 32 * k.val) 32)) ++ rest } =
      .next { s with host := rest, w := s.w.set i v }

/-- R49: the bytes of the window are big-endian, so the 32 bytes of a register in rising order are its big-endian
encoding, and so are the four bytes of any window word. -/
def Obligations.WindowBytesAreBigEndian : Prop :=
  ∀ s : State,
    (∀ (i : Fin 8) (b : Fin 32), s.windowByte (0x100 + 0x20 * i.val + b.val) =
      (s.readW i).extractLsb' (248 - 8 * b.val) 8) ∧
    (∀ (j : Fin 4) (b : Fin 32), s.windowByte (0x200 + 0x80 * j.val + b.val) =
      (s.readPt j).x.extractLsb' (248 - 8 * b.val) 8) ∧
    (∀ (j : Fin 4) (b : Fin 32), s.windowByte (0x220 + 0x80 * j.val + b.val) =
      (s.readPt j).y.extractLsb' (248 - 8 * b.val) 8) ∧
    (∀ (off : Nat) (m : Fin 4), off % 4 = 0 → s.windowByte (off + m.val) =
      (s.readPlace (place off)).extractLsb' (24 - 8 * m.val) 8)

/-- R50: an access the window does not admit is refused. -/
def Obligations.UnadmittedAccessIsRefused : Prop :=
  ∀ (s : State) (off : Nat) (d : BusWord) (w : OtherWidth) (rest : List HostAction),
    (0x400 ≤ off → step { s with host := .read off :: rest } = .refused .outsideWindow ∧
      step { s with host := .write off d :: rest } = .refused .outsideWindow) ∧
    (off < 0x400 → off % 4 ≠ 0 → step { s with host := .read off :: rest } = .refused .misaligned ∧
      step { s with host := .write off d :: rest } = .refused .misaligned) ∧
    step { s with host := .otherWidth w off :: rest } = .refused .widthNotAdmitted

/-- R162: no state keeps a command from being executed, and no admitted host action stops the block. -/
def Obligations.TheBlockNeverGetsStuck : Prop :=
  (∀ (i : Instr) (s : State), ∃ t, exec i s = .next t) ∧
    ∀ (s : State) (a : HostAction) (rest : List HostAction), s.host = a :: rest → a.isAdmitted = true →
      ∃ t, step s = .next t

/-! ## Errors, frames, invariants -/

/-- R38: codes 8 to 15 never occur, and the `STATUS` word stays below `0x20`, whatever the host does. -/
def Obligations.StatusStaysLegal : Prop :=
  ∀ s t : State, s.errLegal → step s = .next t → t.errLegal ∧ t.statusWord.toNat < 0x20

/-- R38, R40, R48: "A write to an operand register never starts anything; only the `CMD` write does", so only a write
to `CMD` and the reset input change `STATUS` or `CMD`. -/
def Obligations.OnlyCmdWritesChangeStatus : Prop :=
  ∀ s t : State, (∀ v rest, s.host ≠ .write 0x000 v :: rest) → (∀ rest, s.host ≠ .reset :: rest) →
    step s = .next t → t.statusWord = s.statusWord ∧ t.cmd = s.cmd

/-- The two invariants hold after reset (R42). -/
def Obligations.ResetMeetsTheInvariants : Prop := State.reset.errLegal ∧ State.reset.pointsValid

/-- R20, R34, R142: while the host writes no point register itself (offsets from `0x200` up), a step from a state
whose point registers all hold valid Points gives such a state. -/
def Obligations.StepsKeepPointRegistersValid : Prop :=
  ∀ s t : State, s.pointsValid → (∀ off d rest, s.host = .write off d :: rest → off < 0x200) →
    step s = .next t → t.pointsValid

/-- R34: a command that completes writes a point register as the zeroed identity or as a canonical point of the
curve with `inf = 0`, whatever the registers held; `NEGP` does so when its operand is valid. -/
def Obligations.PointResultsAreCanonical : Prop :=
  ∀ (i : Instr) (s t : State) (pd : PIdx), i.pointDest = some pd → exec i s = .next t → t.err = 0 →
    (∀ pa, i = .negp pd pa → (s.readPt pa).valid = true) →
    t.readPt pd = PointReg.zeroed ∨
      ((t.readPt pd).inf = false ∧ onCurve (t.readPt pd).x.toNat (t.readPt pd).y.toNat = true)

/-- R153: a failing command changes `STATUS.ERR` and nothing else. -/
def Obligations.FailingCommandChangesOnlyErr : Prop :=
  ∀ (i : Instr) (s t : State), exec i s = .next t → t.err ≠ 0 → t = { s with err := t.err }

/-- R32, R35, R38, R39: what a command leaves alone: every register but its destination, `T` but for the commands
that write it, `CMD`, and the host's side. -/
def Obligations.CommandFrame : Prop :=
  ∀ (i : Instr) (s t : State), exec i s = .next t →
    (∀ k, i.wordDest ≠ some k → t.readW k = s.readW k) ∧
    (∀ j, i.pointDest ≠ some j → t.readPt j = s.readPt j) ∧
    (i.writesFlag = false → t.t = s.t) ∧ SameOutside s t

/-- R174 (with R32, R35 and R33): two states that agree on the word registers and on the Points a command reads give
the same error, and on completion the same written values; nothing else has a say, the `x` and `y` of an identity
register among it. -/
def Obligations.CommandReadsOnlyItsSources : Prop :=
  ∀ (i : Instr) (s1 s2 t1 t2 : State),
    (∀ k ∈ i.wordSources, s1.readW k = s2.readW k) → (∀ j ∈ i.pointSources, (s1.readPt j).toPoint = (s2.readPt j).toPoint) →
    exec i s1 = .next t1 → exec i s2 = .next t2 →
    t1.err = t2.err ∧
      (t1.err = 0 → (∀ k, i.wordDest = some k → t1.readW k = t2.readW k) ∧
        (∀ j, i.pointDest = some j → t1.readPt j = t2.readPt j) ∧ (i.writesFlag = true → t1.t = t2.t))

/-- R150: which commands report which code. -/
def Obligations.ErrorCodesByCommand : Prop :=
  ∀ (i : Instr) (s t : State), exec i s = .next t →
    (t.err = 1 → i.mnemonic ∈ ["ECMUL", "ECADD", "TWEAK", "COMPRESS"]) ∧
    (t.err = 2 → i.mnemonic ∈ ["DECOMPRESS"]) ∧
    (t.err = 3 → i.mnemonic ∈ ["INV.P", "INV.N"]) ∧
    (t.err = 4 → i.mnemonic ∈ ["ECADD"]) ∧
    (t.err = 5 → i.mnemonic ∈ ["RECOVER", "ECMUL", "TWEAK"]) ∧
    t.err ≠ 6 ∧
    (t.err = 7 → i.mnemonic ∈ ["MODEXP"]) ∧ t.err.toNat ≤ 7

/-- R156, R157: a failed command tried again on the same registers fails again in the same way. -/
def Obligations.RetryFailsAgain : Prop :=
  ∀ (i : Instr) (s t : State), exec i s = .next t → t.err ≠ 0 → exec i t = .next t

/-- R154, R177: which error is reported, or that none is, where several conditions meet. -/
def Obligations.OrderOfChecks : Prop :=
  ∀ (s : State) (pd j : PIdx) (k : WIdx),
    ((s.readW k).toNat % Config.n = 0 → (s.readPt j).inf = true → Fails (.ecmul pd k j) s 1) ∧
    ((s.readW k).toNat % Config.n = 0 → (s.readPt j).inf = false → (s.readPt j).valid = true →
      Config.n ≤ (s.readPt j).x.toNat → Completes (.ecmul pd k j) s (WrotePoint s · pd PointReg.zeroed)) ∧
    ((s.readPt j).valid = false → Fails (.ecadd pd j j) s 1) ∧
    ((s.readPt j).valid = true → (s.readPt j).inf = false → Fails (.ecadd pd j j) s 4) ∧
    ((s.readPt j).inf = true → Completes (.ecadd pd j j) s (WrotePoint s · pd PointReg.zeroed)) ∧
    ((s.readPt j).inf = false → (s.readPt j).valid = true → Config.n ≤ (s.readPt j).x.toNat →
      Fails (.tweak pd j k) s 5)

/-! ## Field arithmetic -/

/-- R82, R83: the encoding and the whole effect of `ADD`. -/
def Obligations.AddResult : Prop :=
  ∀ (rd ra rb : WIdx) (s : State),
    decode (BitVec.ofNat 32 (0x10000000 + rd.val * 2 ^ 20 + ra.val * 2 ^ 16 + rb.val * 2 ^ 12)) =
      .ok (.addP rd ra rb) ∧
    Completes (.addP rd ra rb) s
      (WroteWord s · rd (((s.readW ra).toNat + (s.readW rb).toNat) % Config.p)) ∧
    decode (BitVec.ofNat 32 (0x11000000 + rd.val * 2 ^ 20 + ra.val * 2 ^ 16 + rb.val * 2 ^ 12)) =
      .ok (.addN rd ra rb) ∧
    Completes (.addN rd ra rb) s
      (WroteWord s · rd (((s.readW ra).toNat + (s.readW rb).toNat) % Config.n))

/-- R84, R85: the encoding and the whole effect of `SUB`, to the non-negative representative (R16). -/
def Obligations.SubResult : Prop :=
  ∀ (rd ra rb : WIdx) (s : State),
    decode (BitVec.ofNat 32 (0x12000000 + rd.val * 2 ^ 20 + ra.val * 2 ^ 16 + rb.val * 2 ^ 12)) =
      .ok (.subP rd ra rb) ∧
    (∃ v : Nat, (v : Int) = (((s.readW ra).toNat : Int) - ((s.readW rb).toNat : Int)) % (Config.p : Int) ∧
      Completes (.subP rd ra rb) s (WroteWord s · rd v)) ∧
    decode (BitVec.ofNat 32 (0x13000000 + rd.val * 2 ^ 20 + ra.val * 2 ^ 16 + rb.val * 2 ^ 12)) =
      .ok (.subN rd ra rb) ∧
    (∃ v : Nat, (v : Int) = (((s.readW ra).toNat : Int) - ((s.readW rb).toNat : Int)) % (Config.n : Int) ∧
      Completes (.subN rd ra rb) s (WroteWord s · rd v))

/-- R86, R87: the encoding and the whole effect of `MUL`. -/
def Obligations.MulResult : Prop :=
  ∀ (rd ra rb : WIdx) (s : State),
    decode (BitVec.ofNat 32 (0x14000000 + rd.val * 2 ^ 20 + ra.val * 2 ^ 16 + rb.val * 2 ^ 12)) =
      .ok (.mulP rd ra rb) ∧
    Completes (.mulP rd ra rb) s
      (WroteWord s · rd (((s.readW ra).toNat * (s.readW rb).toNat) % Config.p)) ∧
    decode (BitVec.ofNat 32 (0x15000000 + rd.val * 2 ^ 20 + ra.val * 2 ^ 16 + rb.val * 2 ^ 12)) =
      .ok (.mulN rd ra rb) ∧
    Completes (.mulN rd ra rb) s
      (WroteWord s · rd (((s.readW ra).toNat * (s.readW rb).toNat) % Config.n))

/-- R88, R89: the encoding and the whole effect of `RED`; at most one subtraction of the modulus. -/
def Obligations.RedResult : Prop :=
  ∀ (rd ra : WIdx) (s : State),
    decode (BitVec.ofNat 32 (0x16000000 + rd.val * 2 ^ 20 + ra.val * 2 ^ 16)) = .ok (.redP rd ra) ∧
    Completes (.redP rd ra) s (WroteWord s · rd ((s.readW ra).toNat % Config.p)) ∧
    (s.readW ra).toNat % Config.p =
      (if (s.readW ra).toNat < Config.p then (s.readW ra).toNat else (s.readW ra).toNat - Config.p) ∧
    decode (BitVec.ofNat 32 (0x17000000 + rd.val * 2 ^ 20 + ra.val * 2 ^ 16)) = .ok (.redN rd ra) ∧
    Completes (.redN rd ra) s (WroteWord s · rd ((s.readW ra).toNat % Config.n)) ∧
    (s.readW ra).toNat % Config.n =
      (if (s.readW ra).toNat < Config.n then (s.readW ra).toNat else (s.readW ra).toNat - Config.n)

/-- R90, R91: the encoding and the whole effect of `EQ`. -/
def Obligations.EqResult : Prop :=
  ∀ (ra rb : WIdx) (s : State),
    decode (BitVec.ofNat 32 (0x18000000 + ra.val * 2 ^ 16 + rb.val * 2 ^ 12)) = .ok (.eqP ra rb) ∧
    Completes (.eqP ra rb) s (WroteFlag s ·
      (decide ((s.readW ra).toNat % Config.p = (s.readW rb).toNat % Config.p))) ∧
    decode (BitVec.ofNat 32 (0x19000000 + ra.val * 2 ^ 16 + rb.val * 2 ^ 12)) = .ok (.eqN ra rb) ∧
    Completes (.eqN ra rb) s (WroteFlag s ·
      (decide ((s.readW ra).toNat % Config.n = (s.readW rb).toNat % Config.n)))

/-- R92, R93: the encoding and the whole effect of `PAR`. -/
def Obligations.ParResult : Prop :=
  ∀ (ra : WIdx) (s : State),
    decode (BitVec.ofNat 32 (0x1A000000 + ra.val * 2 ^ 16)) = .ok (.parP ra) ∧
    Completes (.parP ra) s (WroteFlag s · (decide ((s.readW ra).toNat % Config.p % 2 = 1))) ∧
    decode (BitVec.ofNat 32 (0x1B000000 + ra.val * 2 ^ 16)) = .ok (.parN ra) ∧
    Completes (.parN ra) s (WroteFlag s · (decide ((s.readW ra).toNat % Config.n % 2 = 1)))

/-- R94, R85: laws between the field commands, for every register content. -/
def Obligations.FieldCommandLaws : Prop :=
  ∀ (rd ra rb : WIdx) (s : State),
    exec (.addP rd ra rb) s = exec (.addP rd rb ra) s ∧ exec (.addN rd ra rb) s = exec (.addN rd rb ra) s ∧
    exec (.mulP rd ra rb) s = exec (.mulP rd rb ra) s ∧ exec (.mulN rd ra rb) s = exec (.mulN rd rb ra) s ∧
    ((s.readW rb).toNat = 0 → exec (.addP rd ra rb) s = exec (.redP rd ra) s ∧
      exec (.addN rd ra rb) s = exec (.redN rd ra) s) ∧
    ((s.readW rb).toNat = 1 → exec (.mulP rd ra rb) s = exec (.redP rd ra) s ∧
      exec (.mulN rd ra rb) s = exec (.redN rd ra) s) ∧
    ((s.readW ra).toNat = 0 → exec (.subN rd ra rb) s = exec (.negs rd rb) s) ∧
    (∀ t, exec (.redP rd ra) s = .next t → exec (.redP rd rd) t = .next t) ∧
    (∀ t, exec (.redN rd ra) s = .next t → exec (.redN rd rd) t = .next t) ∧
    (∀ t u, exec (.negs rd rb) s = .next t → ra ≠ rd → exec (.addN rd ra rd) t = .next u →
      exec (.subN rd ra rb) s = .next u)

/-! ## Exponentiation and inverse -/

/-- R101: the encoding and the whole effect of `MODEXP`. -/
def Obligations.ModexpResult : Prop :=
  ∀ (rd ra rb rc : WIdx) (s : State),
    decode (BitVec.ofNat 32
      (0x20000000 + rd.val * 2 ^ 20 + ra.val * 2 ^ 16 + rb.val * 2 ^ 12 + rc.val * 2 ^ 8)) =
      .ok (.modexp rd ra rb rc) ∧
    ((s.readW rc).toNat = 0 → Fails (.modexp rd ra rb rc) s 7) ∧
    ((s.readW rc).toNat ≠ 0 → Completes (.modexp rd ra rb rc) s
      (WroteWord s · rd ((s.readW ra).toNat ^ (s.readW rb).toNat % (s.readW rc).toNat)))

/-- R102, R103 (with R19): the encoding and the whole effect of `INV`; the result is the power `m - 2`, and it is
the inverse. -/
def Obligations.InverseResult : Prop :=
  ∀ (rd ra : WIdx) (s : State),
    decode (BitVec.ofNat 32 (0x22000000 + rd.val * 2 ^ 20 + ra.val * 2 ^ 16)) = .ok (.invP rd ra) ∧
    ((s.readW ra).toNat % Config.p = 0 → Fails (.invP rd ra) s 3) ∧
    ((s.readW ra).toNat % Config.p ≠ 0 → ∃ r, Completes (.invP rd ra) s (WroteWord s · rd r) ∧
      r = ((s.readW ra).toNat % Config.p) ^ (Config.p - 2) % Config.p ∧
      (r * (s.readW ra).toNat) % Config.p = 1) ∧
    decode (BitVec.ofNat 32 (0x23000000 + rd.val * 2 ^ 20 + ra.val * 2 ^ 16)) = .ok (.invN rd ra) ∧
    ((s.readW ra).toNat % Config.n = 0 → Fails (.invN rd ra) s 3) ∧
    ((s.readW ra).toNat % Config.n ≠ 0 → ∃ r, Completes (.invN rd ra) s (WroteWord s · rd r) ∧
      r = ((s.readW ra).toNat % Config.n) ^ (Config.n - 2) % Config.n ∧
      (r * (s.readW ra).toNat) % Config.n = 1)

/-! ## The curve functions -/

/-- R22: `ec_add` on valid points stays on the curve and is a commutative group law with identity `O` and inverse
`ec_neg`. -/
def Obligations.EcAddIsAGroupLaw : Prop :=
  ∀ P Q R : Point, P.onE → Q.onE → R.onE →
    (ecAdd P Q).onE ∧ ecAdd P Q = ecAdd Q P ∧ ecAdd (ecAdd P Q) R = ecAdd P (ecAdd Q R) ∧
      ecAdd .O P = P ∧ ecAdd P .O = P ∧ (ecNeg P).onE ∧ ecAdd P (ecNeg P) = .O

/-- R24, R25: `ec_mul` depends on the scalar modulo `n` only, is `O` only for `P = O` or a scalar congruent to 0, and
its values at `n` and `n - 1`. -/
def Obligations.EcMulHasOrderN : Prop :=
  (∀ (k : Nat) (P : Point), k < 2 ^ 256 → P.onE →
    ecMul k P = ecMul (k % Config.n) P ∧ (ecMul k P = .O ↔ P = .O ∨ k % Config.n = 0)) ∧
  ecMul Config.n gen = .O ∧ ecMul (Config.n - 1) gen = ecNeg gen

/-- R26, R27: `lift_x` answers the point with the given `x` and parity, fails exactly when there is none (or `x` is
not a field element), and fails at `x = 0`, where no point lies. -/
def Obligations.LiftXFindsThePoint : Prop :=
  (∀ x par : Nat, par < 2 →
    (∀ Q, liftX x par = some Q → ∃ y, Q = .affine x y ∧ onCurve x y = true ∧ y % 2 = par) ∧
    (liftX x par = none ↔ Config.p ≤ x ∨ ¬ IsSquareModP (x * x * x + 7))) ∧
  (∀ par, par < 2 → liftX 0 par = none) ∧ ∀ y, onCurve 0 y = false

/-! ## The recovery engine -/

/-- R110, R111: the encoding and the whole effect of `RECOVER`: the six causes of failure, and the point of the
formula otherwise. -/
def Obligations.RecoverResult : Prop :=
  ∀ (pd : PIdx) (ra rb rc : WIdx) (v : BitVec 8) (s : State),
    decode (BitVec.ofNat 32
      (0x30000000 + pd.val * 2 ^ 20 + ra.val * 2 ^ 16 + rb.val * 2 ^ 12 + rc.val * 2 ^ 8 + v.toNat)) =
      .ok (.recover pd ra rb rc v) ∧
    (2 ≤ v.toNat ∨ (s.readW rb).toNat = 0 ∨ Config.n ≤ (s.readW rb).toNat ∨ (s.readW rc).toNat = 0 ∨
        Config.n ≤ (s.readW rc).toNat ∨
        ¬ IsSquareModP ((s.readW rb).toNat * (s.readW rb).toNat * (s.readW rb).toNat + 7) →
      Fails (.recover pd ra rb rc v) s 5) ∧
    (∀ y, v.toNat < 2 → (s.readW rb).toNat ≠ 0 → (s.readW rb).toNat < Config.n → (s.readW rc).toNat ≠ 0 →
      (s.readW rc).toNat < Config.n → onCurve (s.readW rb).toNat y = true → y % 2 = v.toNat →
      Completes (.recover pd ra rb rc v) s (WrotePoint s · pd
        (ecMul (inv (s.readW rb).toNat Config.n)
          (ecAdd (ecMul (s.readW rc).toNat (.affine (s.readW rb).toNat y))
            (ecNeg (ecMul ((s.readW ra).toNat % Config.n) gen)))).toReg))

/-- R113, R114: the encoding and the whole effect of `ECMUL` in closed form. -/
def Obligations.EcmulResult : Prop :=
  ∀ (pd : PIdx) (ra : WIdx) (pb : PIdx) (s : State),
    decode (BitVec.ofNat 32 (0x31000000 + pd.val * 2 ^ 20 + ra.val * 2 ^ 16 + pb.val * 2 ^ 12)) =
      .ok (.ecmul pd ra pb) ∧
    ((s.readPt pb).inf = true ∨ (s.readPt pb).valid = false → Fails (.ecmul pd ra pb) s 1) ∧
    ((s.readPt pb).inf = false → (s.readPt pb).valid = true → (s.readW ra).toNat % Config.n = 0 →
      Completes (.ecmul pd ra pb) s (WrotePoint s · pd PointReg.zeroed)) ∧
    ((s.readPt pb).inf = false → (s.readPt pb).valid = true → (s.readW ra).toNat % Config.n ≠ 0 →
      Config.n ≤ (s.readPt pb).x.toNat → Fails (.ecmul pd ra pb) s 5) ∧
    ((s.readPt pb).inf = false → (s.readPt pb).valid = true → (s.readW ra).toNat % Config.n ≠ 0 →
      (s.readPt pb).x.toNat < Config.n →
      ecMul ((s.readW ra).toNat % Config.n) (s.readPt pb).toPoint ≠ .O ∧
      Completes (.ecmul pd ra pb) s (WrotePoint s · pd
        (ecMul ((s.readW ra).toNat % Config.n) (s.readPt pb).toPoint).toReg))

/-- R115, R116: the encoding and the whole effect of `MULG` in closed form; it never fails, and it is `ECMUL` on a
register that holds `G`. -/
def Obligations.MulgResult : Prop :=
  ∀ (pd : PIdx) (ra : WIdx) (s : State),
    decode (BitVec.ofNat 32 (0x32000000 + pd.val * 2 ^ 20 + ra.val * 2 ^ 16)) = .ok (.mulg pd ra) ∧
    Completes (.mulg pd ra) s (WrotePoint s · pd (ecMul ((s.readW ra).toNat % Config.n) gen).toReg) ∧
    ∀ pb, s.readPt pb = gen.toReg → exec (.mulg pd ra) s = exec (.ecmul pd ra pb) s

/-- R119: the encoding and the whole effect of `ECADD`: the group sum, but for invalid and for equal operands. -/
def Obligations.EcaddResult : Prop :=
  ∀ (pd pa pb : PIdx) (s : State),
    decode (BitVec.ofNat 32 (0x33000000 + pd.val * 2 ^ 20 + pa.val * 2 ^ 16 + pb.val * 2 ^ 12)) =
      .ok (.ecadd pd pa pb) ∧
    ((s.readPt pa).valid = false ∨ (s.readPt pb).valid = false → Fails (.ecadd pd pa pb) s 1) ∧
    ((s.readPt pa).valid = true → (s.readPt pb).valid = true → (s.readPt pa).inf = false →
      (s.readPt pa).toPoint = (s.readPt pb).toPoint → Fails (.ecadd pd pa pb) s 4) ∧
    ((s.readPt pa).valid = true → (s.readPt pb).valid = true →
      ((s.readPt pa).inf = true ∨ (s.readPt pa).toPoint ≠ (s.readPt pb).toPoint) →
      Completes (.ecadd pd pa pb) s (WrotePoint s · pd
        (ecAdd (s.readPt pa).toPoint (s.readPt pb).toPoint).toReg))

/-- R120, R121: the encoding and the whole effect of `TWEAK` in closed form. -/
def Obligations.TweakResult : Prop :=
  ∀ (pd pa : PIdx) (rb : WIdx) (s : State),
    decode (BitVec.ofNat 32 (0x34000000 + pd.val * 2 ^ 20 + pa.val * 2 ^ 16 + rb.val * 2 ^ 12)) =
      .ok (.tweak pd pa rb) ∧
    ((s.readPt pa).inf = true ∨ (s.readPt pa).valid = false → Fails (.tweak pd pa rb) s 1) ∧
    ((s.readPt pa).inf = false → (s.readPt pa).valid = true → Config.n ≤ (s.readPt pa).x.toNat →
      Fails (.tweak pd pa rb) s 5) ∧
    ((s.readPt pa).inf = false → (s.readPt pa).valid = true → (s.readPt pa).x.toNat < Config.n →
      Completes (.tweak pd pa rb) s (WrotePoint s · pd
        (ecAdd (s.readPt pa).toPoint (ecMul ((s.readW rb).toNat % Config.n) gen)).toReg) ∧
      (ecAdd (s.readPt pa).toPoint (ecMul ((s.readW rb).toNat % Config.n) gen) = .O ↔
        ecMul ((s.readW rb).toNat % Config.n) gen = ecNeg (s.readPt pa).toPoint))

/-- R122 (a): `ECMUL(k1, ECMUL(k2, G))` is `ECMUL(k1 k2 mod n, G)`, run as commands, with the two exceptions: the
inner result `O` and an inner `x` that is not below `n`. -/
def Obligations.ScalarsCompose : Prop :=
  ∀ (s s1 s2 s3 : State) (j1 j2 j3 g : PIdx) (a b c : WIdx), s.readPt g = gen.toReg →
    exec (.ecmul j1 b g) s = .next s1 → exec (.ecmul j2 a j1) s1 = .next s2 →
    (s.readW c).toNat = ((s.readW a).toNat * (s.readW b).toNat) % Config.n →
    exec (.ecmul j3 c g) s = .next s3 →
    ((s.readW b).toNat % Config.n = 0 → s2.err = 1) ∧
    ((s.readW b).toNat % Config.n ≠ 0 → (s.readW a).toNat % Config.n ≠ 0 →
      Config.n ≤ (s1.readPt j1).x.toNat → s2.err = 5) ∧
    ((s.readW b).toNat % Config.n ≠ 0 →
      ((s.readW a).toNat % Config.n = 0 ∨ (s1.readPt j1).x.toNat < Config.n) →
      s2.err = 0 ∧ s3.err = 0 ∧ s2.readPt j2 = s3.readPt j3)

/-- R122 (c): the tweak identity `TWEAK(P, t) = ECADD(P, MULG(t))`, run as commands, with its exceptions: `P = O`,
`t G = P`, and `P.x` not below `n`, where the other path still gives the sum. -/
def Obligations.TweakIdentity : Prop :=
  ∀ (s s1 s2 u : State) (q d pa e : PIdx) (b : WIdx), q ≠ pa → (s.readPt pa).valid = true →
    exec (.mulg q b) s = .next s1 → exec (.ecadd d pa q) s1 = .next s2 → exec (.tweak e pa b) s = .next u →
    ((s.readPt pa).inf = true → u.err = 1 ∧ s2.err = 0 ∧ s2.readPt d = s1.readPt q) ∧
    ((s.readPt pa).inf = false → Config.n ≤ (s.readPt pa).x.toNat → u.err = 5 ∧
      (s1.readPt q ≠ s.readPt pa → s2.err = 0 ∧
        s2.readPt d = (ecAdd (s.readPt pa).toPoint (ecMul ((s.readW b).toNat % Config.n) gen)).toReg)) ∧
    ((s.readPt pa).inf = false → (s.readPt pa).x.toNat < Config.n → s1.readPt q = s.readPt pa →
      s2.err = 4 ∧ u.err = 0 ∧ u.readPt e = (ecAdd (s.readPt pa).toPoint (s.readPt pa).toPoint).toReg) ∧
    ((s.readPt pa).inf = false → (s.readPt pa).x.toNat < Config.n → s1.readPt q ≠ s.readPt pa →
      s2.err = 0 ∧ u.err = 0 ∧ u.readPt e = s2.readPt d)

/-! ## Codec and negation -/

/-- R130: the encoding and the whole effect of `COMPRESS`. -/
def Obligations.CompressResult : Prop :=
  ∀ (rd : WIdx) (pa : PIdx) (s : State),
    decode (BitVec.ofNat 32 (0x40000000 + rd.val * 2 ^ 20 + pa.val * 2 ^ 16)) = .ok (.compress rd pa) ∧
    ((s.readPt pa).inf = true ∨ (s.readPt pa).valid = false → Fails (.compress rd pa) s 1) ∧
    ((s.readPt pa).inf = false → (s.readPt pa).valid = true →
      Completes (.compress rd pa) s (fun t => t.readW rd = (s.readPt pa).x ∧ t.t = (s.readPt pa).y.getLsbD 0 ∧
        (∀ k, k ≠ rd → t.readW k = s.readW k) ∧ t.pt = s.pt ∧ t.err = 0 ∧ SameOutside s t))

/-- R131: the encoding and the whole effect of `DECOMPRESS`. -/
def Obligations.DecompressResult : Prop :=
  ∀ (pd : PIdx) (ra : WIdx) (imm : BitVec 8) (s : State),
    (imm.toNat < 2 →
      decode (BitVec.ofNat 32 (0x41000000 + pd.val * 2 ^ 20 + ra.val * 2 ^ 16 + imm.toNat)) =
        .ok (.decompress pd ra imm)) ∧
    (Config.p ≤ (s.readW ra).toNat ∨
        ¬ IsSquareModP ((s.readW ra).toNat * (s.readW ra).toNat * (s.readW ra).toNat + 7) →
      Fails (.decompress pd ra imm) s 2) ∧
    ((s.readW ra).toNat < Config.p →
      IsSquareModP ((s.readW ra).toNat * (s.readW ra).toNat * (s.readW ra).toNat + 7) →
      ∃ y : Word, onCurve (s.readW ra).toNat y.toNat = true ∧ y.getLsbD 0 = imm.getLsbD 0 ∧
        Completes (.decompress pd ra imm) s
          (WrotePoint s · pd { inf := false, x := s.readW ra, y := y }))

/-- R132: the codec's round trips, the parity passed from `T` to the immediate by the host. -/
def Obligations.CodecRoundTrips : Prop :=
  (∀ (s s1 s2 : State) (rd : WIdx) (pa pd : PIdx) (imm : BitVec 8),
    (s.readPt pa).inf = false → (s.readPt pa).valid = true → exec (.compress rd pa) s = .next s1 →
    imm.getLsbD 0 = s1.t → exec (.decompress pd rd imm) s1 = .next s2 →
    s2.err = 0 ∧ s2.readPt pd = s.readPt pa) ∧
  (∀ (s s1 s2 : State) (pd : PIdx) (ra rd : WIdx) (imm : BitVec 8),
    exec (.decompress pd ra imm) s = .next s1 → s1.err = 0 → exec (.compress rd pd) s1 = .next s2 →
    s2.err = 0 ∧ s2.readW rd = s.readW ra ∧ s2.t = imm.getLsbD 0)

/-- R141: the encoding and the whole effect of `NEGS`, and that applied twice it reduces. -/
def Obligations.NegsResult : Prop :=
  ∀ (rd ra : WIdx) (s : State),
    decode (BitVec.ofNat 32 (0x50000000 + rd.val * 2 ^ 20 + ra.val * 2 ^ 16)) = .ok (.negs rd ra) ∧
    Completes (.negs rd ra) s
      (WroteWord s · rd ((Config.n - (s.readW ra).toNat % Config.n) % Config.n)) ∧
    ∀ t u, exec (.negs rd ra) s = .next t → exec (.negs rd rd) t = .next u →
      (u.readW rd).toNat = (s.readW ra).toNat % Config.n

/-- R142: the encoding and the whole effect of `NEGP`; a valid operand gives its `ec_neg`, valid, and twice gives the
point back. -/
def Obligations.NegpResult : Prop :=
  ∀ (pd pa : PIdx) (s : State),
    decode (BitVec.ofNat 32 (0x51000000 + pd.val * 2 ^ 20 + pa.val * 2 ^ 16)) = .ok (.negp pd pa) ∧
    ((s.readPt pa).inf = true → Completes (.negp pd pa) s (WrotePoint s · pd PointReg.zeroed)) ∧
    ((s.readPt pa).inf = false → ∃ y : Word,
      y.toNat = (Config.p - (s.readPt pa).y.toNat % Config.p) % Config.p ∧
      Completes (.negp pd pa) s (WrotePoint s · pd { inf := false, x := (s.readPt pa).x, y := y })) ∧
    ((s.readPt pa).valid = true → ∀ t u, exec (.negp pd pa) s = .next t → exec (.negp pd pd) t = .next u →
      t.readPt pd = (ecNeg (s.readPt pa).toPoint).toReg ∧ (t.readPt pd).valid = true ∧
      (u.readPt pd).toPoint = (s.readPt pa).toPoint)
end

