-- ==== Sys2Proof/Laws/Arith.lean ====
section
/-! SUPPORT. What the integer arithmetic of the rules computes: `modZ` (R16), `modexp` (R18), `inv` (R19). -/

namespace Sys2Proof.Machine

open Sys2Proof

theorem p_pos : 0 < Config.p := by decide
theorem n_pos : 0 < Config.n := by decide
theorem n_lt_p : Config.n < Config.p := by decide
theorem p_lt_word : Config.p < 2 ^ 256 := by decide
theorem n_lt_word : Config.n < 2 ^ 256 := by decide

theorem mod_p_lt (a : Nat) : a % Config.p < 2 ^ 256 := (Nat.mod_lt a p_pos).trans p_lt_word
theorem mod_n_lt (a : Nat) : a % Config.n < 2 ^ 256 := (Nat.mod_lt a n_pos).trans n_lt_word

/-- `modZ` is the representative: it is congruent to `a`. -/
theorem modZ_cast {m : Nat} (hm : 0 < m) (a : Int) : (modZ a m : Int) = a % (m : Int) :=
  Int.toNat_of_nonneg (Int.emod_nonneg _ (by omega))

theorem modZ_lt {m : Nat} (hm : 0 < m) (a : Int) : modZ a m < m := by
  have h := Int.emod_lt_of_pos a (show (0 : Int) < m by omega)
  have := modZ_cast hm a
  omega

/-- On a non-negative integer `modZ` is the remainder of naturals. -/
theorem modZ_natCast (a m : Nat) : modZ (a : Int) m = a % m := by
  simp only [modZ, ← Int.natCast_emod, Int.toNat_natCast]

theorem modexpLoop_eq (m k b e acc : Nat) (he : e < 2 ^ k) :
    modexpLoop m k b e (acc % m) = acc * b ^ e % m := by
  induction k generalizing b e acc with
  | zero =>
    obtain rfl : e = 0 := by simpa using he
    simp [modexpLoop]
  | succ k ih =>
    have hk : e / 2 < 2 ^ k := by rw [pow_succ] at he; omega
    have hsq : (b * b % m) ^ (e / 2) % m = b ^ (2 * (e / 2)) % m := by
      rw [← Nat.pow_mod, pow_mul, pow_two]
    have hacc (c : Nat) : modexpLoop m k (b * b % m) (e / 2) (c % m) = c * b ^ (2 * (e / 2)) % m := by
      rw [ih _ _ _ hk, Nat.mul_mod, hsq, ← Nat.mul_mod]
    rw [modexpLoop]
    split
    next h =>
      have he' : e = 2 * (e / 2) + 1 := by omega
      rw [Nat.mod_mul_mod, hacc, mul_assoc, ← pow_succ', ← he']
    next h =>
      have he' : e = 2 * (e / 2) := by omega
      rw [hacc, ← he']

/-- `modexp` computes `b ^ e mod m` (R18), for every base, exponent and modulus. -/
theorem modexp_eq (b e m : Nat) : modexp b e m = b ^ e % m := by
  rw [modexp, modexpLoop_eq _ _ _ _ _ Nat.lt_log2_self, one_mul, ← Nat.pow_mod]

theorem inv_eq (a m : Nat) : inv a m = a ^ (m - 2) % m := by
  rw [inv, modexp_eq, ← Nat.pow_mod]

end Sys2Proof.Machine
end

