-- ==== Sys2Proof/Laws/Primes.lean ====
section
/-! SUPPORT. `p` and `n` are prime (R10, R11), by Pocklington's criterion; the powers are computed by the
model's own `modexp`. -/

namespace Sys2Proof.Machine

open Sys2Proof

/-- A power of `a` that is 1 modulo `N` while its `r`-th part shares no factor with `N` when lessened by one: then
`r` divides `s - 1` for every prime factor `s` of `N`. -/
theorem dvd_pred_of_witness {N r s a : Nat} (hN : 1 < N) (hr : r.Prime) (hrN : r ∣ N - 1) (hs : s.Prime)
    (hsN : s ∣ N) (h1 : modexp a (N - 1) N = 1) (h2 : Nat.gcd (modexp a ((N - 1) / r) N + N - 1) N = 1) :
    r ∣ s - 1 := by
  have : Fact s.Prime := ⟨hs⟩
  rw [modexp_eq] at h1 h2
  have one : (a : ZMod s) ^ (N - 1) = 1 := by
    have : a ^ (N - 1) ≡ 1 [MOD s] :=
      Nat.ModEq.of_dvd hsN (by rw [Nat.ModEq, h1, Nat.mod_eq_of_lt hN])
    simpa using (ZMod.natCast_eq_natCast_iff _ _ _).2 this
  have a0 : (a : ZMod s) ≠ 0 := by
    intro h
    rw [h, zero_pow (by omega)] at one
    exact zero_ne_one one
  have part : (a : ZMod s) ^ ((N - 1) / r) ≠ 1 := by
    intro h
    have hcong : ((a ^ ((N - 1) / r) % N + N - 1 : Nat) : ZMod s) = 0 := by
      have hNs : ((N : Nat) : ZMod s) = 0 := (ZMod.natCast_eq_zero_iff _ _).2 hsN
      have hmod : ((a ^ ((N - 1) / r) % N : Nat) : ZMod s) = 1 := by
        have := congrArg (Nat.cast (R := ZMod s)) (Nat.div_add_mod (a ^ ((N - 1) / r)) N)
        simpa [hNs, h] using this
      rw [Nat.add_sub_assoc hN.le, Nat.cast_add, hmod, Nat.cast_sub hN.le, hNs]
      simp
    have := Nat.dvd_gcd ((ZMod.natCast_eq_zero_iff _ _).1 hcong) hsN
    rw [h2] at this
    exact hs.one_lt.ne' (Nat.dvd_one.1 this)
  have hd1 : orderOf (a : ZMod s) ∣ N - 1 := orderOf_dvd_of_pow_eq_one one
  have hd2 : ¬ orderOf (a : ZMod s) ∣ (N - 1) / r := fun h => part (orderOf_dvd_iff_pow_eq_one.1 h)
  have hrd : r ∣ orderOf (a : ZMod s) := by
    by_contra hnot
    have hco : Nat.Coprime (orderOf (a : ZMod s)) r := ((Nat.Prime.coprime_iff_not_dvd hr).2 hnot).symm
    exact hd2 (hco.dvd_of_dvd_mul_right (by rwa [Nat.div_mul_cancel hrN]))
  exact hrd.trans (orderOf_dvd_of_pow_eq_one (ZMod.pow_card_sub_one_eq_one a0))

/-- Pocklington's criterion: every prime factor is 1 modulo a number beyond the square root. -/
theorem prime_of_dvd_pred {N F : Nat} (hN : 1 < N) (hF : N < F * F)
    (h : ∀ s : Nat, s.Prime → s ∣ N → F ∣ s - 1) : N.Prime := by
  by_contra hnp
  have hs := Nat.minFac_prime hN.ne'
  have hle : F ≤ N.minFac := (Nat.le_of_dvd (by have := hs.two_le; omega) (h _ hs N.minFac_dvd)).trans (by omega)
  have hsq := Nat.minFac_sq_le_self (by omega : 0 < N) hnp
  nlinarith [Nat.mul_le_mul hle hle]

theorem prime_128 : Nat.Prime 255515944373312847190720520512484175977 :=
  prime_of_dvd_pred (F := 107590001 * 7240687 * 96557) (by norm_num) (by norm_num) fun s hs hsN =>
    Nat.Coprime.mul_dvd_of_dvd_of_dvd (by norm_num)
      (Nat.Coprime.mul_dvd_of_dvd_of_dvd (by norm_num)
        (dvd_pred_of_witness (a := 2) (by norm_num) (by norm_num) (by norm_num) hs hsN
          (by decide +kernel) (by decide +kernel))
        (dvd_pred_of_witness (a := 2) (by norm_num) (by norm_num) (by norm_num) hs hsN
          (by decide +kernel) (by decide +kernel)))
      (dvd_pred_of_witness (a := 2) (by norm_num) (by norm_num) (by norm_num) hs hsN
        (by decide +kernel) (by decide +kernel))

theorem prime_238 :
    Nat.Prime 205115282021455665897114700593932402728804164701536103180137503955397371 :=
  prime_of_dvd_pred (F := 255515944373312847190720520512484175977) (by norm_num) (by norm_num)
    fun s hs hsN => dvd_pred_of_witness (a := 2) (by norm_num) prime_128 (by norm_num) hs hsN
      (by decide +kernel) (by decide +kernel)

/-- R10: the field prime is prime. -/
theorem p_prime : Nat.Prime Config.p :=
  prime_of_dvd_pred (F := 205115282021455665897114700593932402728804164701536103180137503955397371)
    (by decide +kernel) (by decide +kernel) fun s hs hsN =>
      dvd_pred_of_witness (a := 2) (by decide +kernel) prime_238 (by decide +kernel) hs hsN
        (by decide +kernel) (by decide +kernel)

theorem prime_30 : Nat.Prime 545358713 :=
  prime_of_dvd_pred (F := 28181) (by norm_num) (by norm_num) fun s hs hsN =>
    dvd_pred_of_witness (a := 2) (by norm_num) (by norm_num) (by norm_num) hs hsN
      (by decide +kernel) (by decide +kernel)

theorem prime_95 : Nat.Prime 29047611873442575647497758179 :=
  prime_of_dvd_pred (F := 545358713 * 305873 * 293) (by norm_num) (by norm_num) fun s hs hsN =>
    Nat.Coprime.mul_dvd_of_dvd_of_dvd (by norm_num)
      (Nat.Coprime.mul_dvd_of_dvd_of_dvd (by norm_num)
        (dvd_pred_of_witness (a := 2) (by norm_num) prime_30 (by norm_num) hs hsN
          (by decide +kernel) (by decide +kernel))
        (dvd_pred_of_witness (a := 2) (by norm_num) (by norm_num) (by norm_num) hs hsN
          (by decide +kernel) (by decide +kernel)))
      (dvd_pred_of_witness (a := 2) (by norm_num) (by norm_num) (by norm_num) hs hsN
        (by decide +kernel) (by decide +kernel))

theorem prime_108 : Nat.Prime 341948486974166000522343609283189 :=
  prime_of_dvd_pred (F := 29047611873442575647497758179) (by norm_num) (by norm_num)
    fun s hs hsN => dvd_pred_of_witness (a := 2) (by norm_num) prime_95 (by norm_num) hs hsN
      (by decide +kernel) (by decide +kernel)

theorem prime_67 : Nat.Prime 174723607534414371449 :=
  prime_of_dvd_pred (F := 44706919 * 120233) (by norm_num) (by norm_num) fun s hs hsN =>
    Nat.Coprime.mul_dvd_of_dvd_of_dvd (by norm_num)
      (dvd_pred_of_witness (a := 2) (by norm_num) (by norm_num) (by norm_num) hs hsN
        (by decide +kernel) (by decide +kernel))
      (dvd_pred_of_witness (a := 2) (by norm_num) (by norm_num) (by norm_num) hs hsN
        (by decide +kernel) (by decide +kernel))

/-- R11: the curve order is prime. -/
theorem n_prime : Nat.Prime Config.n :=
  prime_of_dvd_pred (F := 341948486974166000522343609283189 * 174723607534414371449)
    (by decide +kernel) (by decide +kernel) fun s hs hsN =>
      Nat.Coprime.mul_dvd_of_dvd_of_dvd (by norm_num)
        (dvd_pred_of_witness (a := 2) (by decide +kernel) prime_108 (by decide +kernel) hs hsN
          (by decide +kernel) (by decide +kernel))
        (dvd_pred_of_witness (a := 2) (by decide +kernel) prime_67 (by decide +kernel) hs hsN
          (by decide +kernel) (by decide +kernel))

theorem p_mod_4 : Config.p % 4 = 3 := by decide

end Sys2Proof.Machine
end

