-- ==== Sys2Proof/Laws/Group.lean ====
section
/-! SUPPORT. The curve functions of the model are the group law of Mathlib's Weierstrass curve (R20 to R23), and
that group has prime order `n` (R24). `Fact (Nat.Prime Config.p)` is `fact_p`. -/

namespace Sys2Proof.Machine

open Sys2Proof

theorem fact_p : Fact (Nat.Prime Config.p) := ⟨p_prime⟩

/-- The field of `p` elements. -/
abbrev Fp := ZMod Config.p

/-! ## Integers and field elements -/

theorem cast_mod_p (a : Nat) : ((a % Config.p : Nat) : Fp) = a := ZMod.natCast_mod a _

theorem cast_modZ_p (a : Int) : ((modZ a Config.p : Nat) : Fp) = (a : Fp) := by
  have h := congrArg (Int.cast (R := Fp)) (modZ_cast p_pos a)
  simpa only [Int.cast_natCast, ZMod.intCast_mod] using h

theorem cast_inj_p {a b : Nat} (ha : a < Config.p) (hb : b < Config.p) : (a : Fp) = b ↔ a = b := by
  rw [ZMod.natCast_eq_natCast_iff', Nat.mod_eq_of_lt ha, Nat.mod_eq_of_lt hb]

theorem cast_eq_iff_mod (a b : Nat) : (a : Fp) = b ↔ a % Config.p = b % Config.p :=
  ZMod.natCast_eq_natCast_iff' a b _

theorem cast_neg_p {y : Nat} (hy : y ≤ Config.p) : (((Config.p - y) % Config.p : Nat) : Fp) = -(y : Fp) := by
  rw [cast_mod_p, Nat.cast_sub hy, ZMod.natCast_self, zero_sub]

theorem onCurve_iff (x y : Nat) :
    onCurve x y = true ↔ x < Config.p ∧ y < Config.p ∧ (y : Fp) ^ 2 = (x : Fp) ^ 3 + 7 := by
  simp only [onCurve, Bool.and_eq_true, decide_eq_true_eq, beq_iff_eq, ← cast_eq_iff_mod, Config.curveB]
  push_cast
  rw [and_assoc, pow_two, pow_three']

theorem natLit_ne_zero {a : Nat} (h0 : a ≠ 0) (h : a < Config.p) : (a : Fp) ≠ 0 := by
  rw [Ne, ← Nat.cast_zero, cast_inj_p h p_pos]
  exact h0

theorem onE_gen : gen.onE := by
  show onCurve Config.gx Config.gy = true
  decide +kernel

set_option Elab.async false in
/-- The double-and-add computation behind "`ec_mul(n, G)` is the identity" (R13, R25). -/
theorem ecMul_n_gen : ecMul Config.n gen = .O := by decide +kernel

section
variable [Fact (Nat.Prime Config.p)]

theorem cast_inv_p (a : Nat) : ((inv a Config.p : Nat) : Fp) = (a : Fp)⁻¹ := by
  rw [inv_eq, cast_mod_p, Nat.cast_pow]
  have h2 : Config.p - 2 + 1 = Config.p - 1 := by decide +kernel
  rcases eq_or_ne (a : Fp) 0 with h | h
  · rw [h, zero_pow (by decide +kernel), inv_zero]
  · exact eq_inv_of_mul_eq_one_left (by rw [← pow_succ, h2, ZMod.pow_card_sub_one_eq_one h])

/-! ## The curve -/

/-- secp256k1 as a Weierstrass curve of Mathlib (R12). -/
def curve : WeierstrassCurve.Affine Fp := { a₁ := 0, a₂ := 0, a₃ := 0, a₄ := 0, a₆ := 7 }

theorem seven_ne_zero' : (7 : Fp) ≠ 0 := by
  exact_mod_cast natLit_ne_zero (a := 7) (by decide) (by decide)

theorem two_ne_zero' : (2 : Fp) ≠ 0 := by
  exact_mod_cast natLit_ne_zero (a := 2) (by decide) (by decide)

theorem three_ne_zero' : (3 : Fp) ≠ 0 := by
  exact_mod_cast natLit_ne_zero (a := 3) (by decide) (by decide)

/-- `-7` is not a cube: so no point of the curve has `y = 0` (R22), and the group has no element of order 2. -/
theorem cube_ne_neg_seven (x : Fp) : x ^ 3 + 7 ≠ 0 := by
  intro h
  have hx : x ≠ 0 := by
    rintro rfl
    exact seven_ne_zero' (by simpa using h)
  have h3 : x ^ 3 = -7 := eq_neg_of_add_eq_zero_left h
  have h1 : (-7 : Fp) ^ ((Config.p - 1) / 3) = 1 := by
    rw [← h3, ← pow_mul]
    have : 3 * ((Config.p - 1) / 3) = Config.p - 1 := by decide +kernel
    rw [this, ZMod.pow_card_sub_one_eq_one hx]
  have h7 : ((modexp (Config.p - 7) ((Config.p - 1) / 3) Config.p : Nat) : Fp) = 1 := by
    rw [modexp_eq, cast_mod_p, Nat.cast_pow, Nat.cast_sub (by decide +kernel), ZMod.natCast_self]
    simpa using h1
  have hlt : modexp (Config.p - 7) ((Config.p - 1) / 3) Config.p < Config.p := by
    rw [modexp_eq]
    exact Nat.mod_lt _ p_pos
  have h8 := (cast_inj_p hlt (b := 1) (by decide +kernel)).1 (h7.trans Nat.cast_one.symm)
  revert h8
  decide +kernel

theorem equation_iff_E (x y : Fp) : curve.Equation x y ↔ y ^ 2 = x ^ 3 + 7 := by
  rw [WeierstrassCurve.Affine.equation_iff]
  simp [curve]

theorem nonsingular_iff_E (x y : Fp) : curve.Nonsingular x y ↔ y ^ 2 = x ^ 3 + 7 := by
  rw [WeierstrassCurve.Affine.nonsingular_iff, equation_iff_E]
  refine ⟨fun h => h.1, fun h => ⟨h, Or.inr ?_⟩⟩
  simp only [curve, zero_mul, sub_zero]
  intro hy
  have hy0 : y = 0 := by
    have : (2 : Fp) * y = 0 := by linear_combination hy
    exact (mul_eq_zero.1 this).resolve_left two_ne_zero'
  exact cube_ne_neg_seven x (by rw [← h, hy0]; ring)

theorem negY_E (x y : Fp) : curve.negY x y = -y := by
  simp [WeierstrassCurve.Affine.negY, curve]

open Classical in
/-- The element of Mathlib's group that a Point stands for. -/
noncomputable def Point.toE : Point → curve.Point
  | .O => 0
  | .affine x y => if h : curve.Nonsingular (x : Fp) (y : Fp) then .some _ _ h else 0

@[simp] theorem toE_O : Point.toE .O = 0 := rfl

theorem nonsingular_of_onCurve {x y : Nat} (h : onCurve x y = true) : curve.Nonsingular (x : Fp) (y : Fp) :=
  (nonsingular_iff_E _ _).2 ((onCurve_iff x y).1 h).2.2

theorem toE_affine {x y : Nat} (h : onCurve x y = true) :
    Point.toE (.affine x y) = .some _ _ (nonsingular_of_onCurve h) := by
  rw [Point.toE, dif_pos]

/-- A Point is determined by the group element it stands for. -/
theorem toE_inj {P Q : Point} (hP : P.onE) (hQ : Q.onE) (h : P.toE = Q.toE) : P = Q := by
  cases P with
  | O =>
    cases Q with
    | O => rfl
    | affine x y => rw [toE_affine hQ] at h; exact absurd h.symm (WeierstrassCurve.Affine.Point.some_ne_zero _)
  | affine x y =>
    cases Q with
    | O => rw [toE_affine hP] at h; exact absurd h (WeierstrassCurve.Affine.Point.some_ne_zero _)
    | affine x' y' =>
      rw [toE_affine hP, toE_affine hQ, WeierstrassCurve.Affine.Point.some.injEq] at h
      obtain ⟨hx, hy, -⟩ := (onCurve_iff x y).1 hP
      obtain ⟨hx', hy', -⟩ := (onCurve_iff x' y').1 hQ
      rw [cast_inj_p hx hx', cast_inj_p hy hy'] at h
      rw [h.1, h.2]

/-- Every element of the group is the Point of its coordinates. -/
theorem exists_toE (A : curve.Point) : ∃ P : Point, P.onE ∧ P.toE = A := by
  cases A with
  | zero => exact ⟨.O, trivial, rfl⟩
  | some x y h =>
    have hon : onCurve x.val y.val = true := by
      rw [onCurve_iff]
      refine ⟨ZMod.val_lt x, ZMod.val_lt y, ?_⟩
      rw [ZMod.natCast_zmod_val, ZMod.natCast_zmod_val]
      exact (nonsingular_iff_E x y).1 h
    refine ⟨.affine x.val y.val, hon, ?_⟩
    rw [toE_affine hon]
    simp only [ZMod.natCast_zmod_val]

theorem onE_ecNeg {P : Point} (hP : P.onE) : (ecNeg P).onE := by
  cases P with
  | O => trivial
  | affine x y =>
    obtain ⟨hx, hy, h⟩ := (onCurve_iff x y).1 hP
    refine (onCurve_iff _ _).2 ⟨hx, Nat.mod_lt _ p_pos, ?_⟩
    rw [cast_neg_p hy.le, neg_sq, h]

theorem toE_ecNeg {P : Point} (hP : P.onE) : (ecNeg P).toE = -P.toE := by
  cases P with
  | O => simp [ecNeg]
  | affine x y =>
    have hN := onE_ecNeg hP
    rw [toE_affine hP, WeierstrassCurve.Affine.Point.neg_some]
    rw [ecNeg] at hN ⊢
    rw [toE_affine hN, WeierstrassCurve.Affine.Point.some.injEq]
    exact ⟨rfl, by rw [negY_E, cast_neg_p ((onCurve_iff x y).1 hP).2.1.le]⟩

/-- The end of both slope formulas is Mathlib's sum. -/
theorem onE_toE_lineSum {x1 y1 x2 y2 lam : Nat} (h1 : onCurve x1 y1 = true) (h2 : onCurve x2 y2 = true)
    (hne : ¬((x1 : Fp) = x2 ∧ (y1 : Fp) = curve.negY (x2 : Fp) (y2 : Fp)))
    (hlam : (lam : Fp) = curve.slope (x1 : Fp) x2 y1 y2) :
    (lineSum lam x1 y1 x2).onE ∧
      (lineSum lam x1 y1 x2).toE = Point.toE (.affine x1 y1) + Point.toE (.affine x2 y2) := by
  have hx3 : ((modZ ((lam : Int) * lam - x1 - x2) Config.p : Nat) : Fp) = curve.addX (x1 : Fp) x2 lam := by
    rw [cast_modZ_p, WeierstrassCurve.Affine.addX]
    push_cast
    simp only [curve]
    ring
  have hy3 : ((modZ ((lam : Int) * ((x1 : Int) - (modZ ((lam : Int) * lam - x1 - x2) Config.p : Nat)) - y1)
      Config.p : Nat) : Fp) = curve.addY (x1 : Fp) x2 y1 lam := by
    rw [cast_modZ_p, WeierstrassCurve.Affine.addY, negY_E, WeierstrassCurve.Affine.negAddY, ← hx3]
    push_cast
    ring
  have hns := WeierstrassCurve.Affine.nonsingular_add (nonsingular_of_onCurve h1) (nonsingular_of_onCurve h2) hne
  rw [← hlam, ← hx3, ← hy3] at hns
  have hon : onCurve (modZ ((lam : Int) * lam - x1 - x2) Config.p)
      (modZ ((lam : Int) * ((x1 : Int) - (modZ ((lam : Int) * lam - x1 - x2) Config.p : Nat)) - y1) Config.p) = true :=
    (onCurve_iff _ _).2 ⟨modZ_lt p_pos _, modZ_lt p_pos _, (nonsingular_iff_E _ _).1 hns⟩
  refine ⟨hon, ?_⟩
  rw [toE_affine h1, toE_affine h2, WeierstrassCurve.Affine.Point.add_some hne, lineSum, toE_affine hon,
    WeierstrassCurve.Affine.Point.some.injEq, ← hlam]
  exact ⟨hx3, hy3⟩

/-- Two points of one `x` have equal or opposite `y`. -/
theorem y_eq_or_neg {x y1 y2 : Nat} (h1 : onCurve x y1 = true) (h2 : onCurve x y2 = true) :
    y1 = y2 ∨ (y1 + y2) % Config.p = 0 := by
  obtain ⟨-, hy1, e1⟩ := (onCurve_iff _ _).1 h1
  obtain ⟨-, hy2, e2⟩ := (onCurve_iff _ _).1 h2
  have h : (y1 : Fp) ^ 2 = (y2 : Fp) ^ 2 := e1.trans e2.symm
  rcases sq_eq_sq_iff_eq_or_eq_neg.1 h with h | h
  · exact Or.inl ((cast_inj_p hy1 hy2).1 h)
  · right
    have : ((y1 + y2 : Nat) : Fp) = ((0 : Nat) : Fp) := by push_cast; rw [h]; ring
    simpa using (cast_eq_iff_mod _ _).1 this

/-- No point of the curve has `y = 0` (R22). -/
theorem y_ne_zero {x y : Nat} (h : onCurve x y = true) : (y : Fp) ≠ 0 := by
  intro hy
  have := ((onCurve_iff _ _).1 h).2.2
  rw [hy] at this
  exact cube_ne_neg_seven x (by rw [← this]; ring)

theorem sum_zero_iff {y1 y2 : Nat} : (y1 + y2) % Config.p = 0 ↔ (y1 : Fp) = -y2 := by
  rw [show (0 : Nat) = 0 % Config.p by simp, ← cast_eq_iff_mod]
  push_cast
  exact add_eq_zero_iff_eq_neg

/-- `ec_add` is the group law of Mathlib's curve, and keeps to the curve (R22). -/
theorem onE_toE_ecAdd {P Q : Point} (hP : P.onE) (hQ : Q.onE) :
    (ecAdd P Q).onE ∧ (ecAdd P Q).toE = P.toE + Q.toE := by
  cases P with
  | O => exact ⟨by simpa [ecAdd] using hQ, by simp [ecAdd]⟩
  | affine x1 y1 =>
    cases Q with
    | O => exact ⟨by simpa [ecAdd] using hP, by simp [ecAdd]⟩
    | affine x2 y2 =>
      obtain ⟨hx1, hy1, e1⟩ := (onCurve_iff _ _).1 hP
      obtain ⟨hx2, hy2, e2⟩ := (onCurve_iff _ _).1 hQ
      have hxx := cast_inj_p hx1 hx2
      have hyy := cast_inj_p hy1 hy2
      rw [ecAdd]
      split_ifs with h0 h1
      · refine ⟨trivial, ?_⟩
        rw [toE_affine hP, toE_affine hQ, toE_O]
        exact (WeierstrassCurve.Affine.Point.add_of_Y_eq (hxx.2 h0.1) (by rw [negY_E]; exact sum_zero_iff.1 h0.2)).symm
      · have hne : ¬((x1 : Fp) = x2 ∧ (y1 : Fp) = curve.negY (x2 : Fp) (y2 : Fp)) := by
          rw [negY_E, hxx, ← sum_zero_iff]; exact h0
        refine onE_toE_lineSum hP hQ hne ?_
        have hyne : (y1 : Fp) ≠ curve.negY (x2 : Fp) (y2 : Fp) := fun h => hne ⟨hxx.2 h1.1, h⟩
        rw [WeierstrassCurve.Affine.slope_of_Y_ne (hxx.2 h1.1) hyne, tangentSlope, cast_mod_p, Nat.cast_mul,
          cast_inv_p, negY_E]
        simp only [curve]
        push_cast
        rw [div_eq_mul_inv]
        ring_nf
      · have hx : (x1 : Fp) ≠ x2 := by
          intro h
          have hx := hxx.1 h
          subst hx
          rcases y_eq_or_neg hP hQ with h | h
          · exact h1 ⟨rfl, h⟩
          · exact h0 ⟨rfl, h⟩
        refine onE_toE_lineSum hP hQ (fun h => hx h.1) ?_
        rw [WeierstrassCurve.Affine.slope_of_X_ne hx, chordSlope, cast_modZ_p]
        push_cast
        rw [cast_inv_p, cast_modZ_p]
        push_cast
        rw [← div_eq_mul_inv, ← neg_div_neg_eq, neg_sub, neg_sub]

theorem onE_ecAdd {P Q : Point} (hP : P.onE) (hQ : Q.onE) : (ecAdd P Q).onE := (onE_toE_ecAdd hP hQ).1

theorem toE_ecAdd {P Q : Point} (hP : P.onE) (hQ : Q.onE) : (ecAdd P Q).toE = P.toE + Q.toE :=
  (onE_toE_ecAdd hP hQ).2

theorem onE_toE_ecMulLoop (k : Nat) {P : Point} (hP : P.onE) (i : Nat) (R : Point) (hR : R.onE) :
    (ecMulLoop k P i R).onE ∧ (ecMulLoop k P i R).toE = 2 ^ i • R.toE + (k % 2 ^ i) • P.toE := by
  induction i generalizing R with
  | zero => exact ⟨hR, by simp [ecMulLoop, Nat.mod_one]⟩
  | succ i ih =>
    have hRR := onE_toE_ecAdd hR hR
    have hk : k % 2 ^ (i + 1) = 2 ^ i * (k.testBit i).toNat + k % 2 ^ i := by
      rw [Nat.mod_pow_succ, Nat.toNat_testBit]; ring
    rw [ecMulLoop]
    cases hb : k.testBit i with
    | false =>
      obtain ⟨h1, h2⟩ := ih _ hRR.1
      refine ⟨by simpa using h1, ?_⟩
      simp only [Bool.false_eq_true, if_false]
      rw [h2, hRR.2, hk, hb, pow_succ]
      simp only [Bool.toNat_false]
      module
    | true =>
      have hA := onE_toE_ecAdd hRR.1 hP
      obtain ⟨h1, h2⟩ := ih _ hA.1
      refine ⟨by simpa using h1, ?_⟩
      simp only [if_true]
      rw [h2, hA.2, hRR.2, hk, hb, pow_succ]
      simp only [Bool.toNat_true]
      module

theorem onE_ecMul {k : Nat} {P : Point} (hP : P.onE) : (ecMul k P).onE := (onE_toE_ecMulLoop k hP 256 .O trivial).1

/-- `ec_mul` is multiplication by `k` in the group (R23). -/
theorem toE_ecMul {k : Nat} (hk : k < 2 ^ 256) {P : Point} (hP : P.onE) : (ecMul k P).toE = k • P.toE := by
  have h := (onE_toE_ecMulLoop k hP 256 .O trivial).2
  rw [Nat.mod_eq_of_lt hk] at h
  rw [ecMul, h, toE_O, nsmul_zero, zero_add]

/-! ## The order of the group -/

theorem addOrderOf_gen : addOrderOf gen.toE = Config.n := by
  have : Fact (Nat.Prime Config.n) := ⟨n_prime⟩
  refine addOrderOf_eq_prime ?_ ?_
  · rw [← toE_ecMul n_lt_word onE_gen, ecMul_n_gen, toE_O]
  · intro h
    exact absurd (toE_inj onE_gen (Q := .O) trivial h) (by decide)

/-- The coordinate `x` and the parity of `y`: at most `2 p + 1` values, one for each point. -/
def compressedForm : curve.Point → Option (Fp × Bool)
  | .zero => none
  | .some x y _ => some (x, decide (y.val % 2 = 1))

theorem parity_neg {y : Fp} (hy : y ≠ 0) : (-y).val % 2 ≠ y.val % 2 := by
  have : NeZero y := ⟨hy⟩
  have h1 := ZMod.val_neg_of_ne_zero y
  have h2 := ZMod.val_lt y
  have h3 : Config.p % 2 = 1 := by decide
  omega

theorem compressedForm_injective : Function.Injective compressedForm := by
  intro A B h
  cases A with
  | zero =>
    cases B with
    | zero => rfl
    | some x y hB => simp [compressedForm] at h
  | some x y hA =>
    cases B with
    | zero => simp [compressedForm] at h
    | some x' y' hB =>
      simp only [compressedForm, Option.some.injEq, Prod.mk.injEq, decide_eq_decide] at h
      obtain ⟨rfl, hp⟩ := h
      have e := (nonsingular_iff_E _ _).1 hA
      have hsq : y ^ 2 = y' ^ 2 := e.trans ((nonsingular_iff_E _ _).1 hB).symm
      rcases sq_eq_sq_iff_eq_or_eq_neg.1 hsq with rfl | rfl
      · rfl
      · have hy' : y' ≠ 0 := by
          rintro rfl
          exact cube_ne_neg_seven x (by rw [← e]; ring)
        have := parity_neg hy'
        omega

theorem finite_curve : Finite curve.Point :=
  have : NeZero Config.p := ⟨p_pos.ne'⟩
  Finite.of_injective _ compressedForm_injective

theorem card_curve_le : Nat.card curve.Point ≤ 2 * Config.p + 1 := by
  have : NeZero Config.p := ⟨p_pos.ne'⟩
  refine (Nat.card_le_card_of_injective _ compressedForm_injective).trans ?_
  simp [Nat.card_eq_fintype_card, ZMod.card]
  omega

/-- The group has no element of order 2. -/
theorem two_torsion {A : curve.Point} (h : A + A = 0) : A = 0 := by
  cases A with
  | zero => rfl
  | some x y hA =>
    have hneg := eq_neg_of_add_eq_zero_left h
    rw [WeierstrassCurve.Affine.Point.neg_some, WeierstrassCurve.Affine.Point.some.injEq, negY_E] at hneg
    have hy : y = 0 := by
      have : (2 : Fp) * y = 0 := by linear_combination hneg.2
      exact (mul_eq_zero.1 this).resolve_left two_ne_zero'
    exact absurd (by rw [← (nonsingular_iff_E _ _).1 hA, hy]; ring) (cube_ne_neg_seven x)

/-- The group of secp256k1 has `n` elements (R24): `n` divides the order, which is below `3 n` and odd. -/
theorem card_curve : Nat.card curve.Point = Config.n := by
  have := finite_curve
  obtain ⟨m, hm⟩ : Config.n ∣ Nat.card curve.Point := addOrderOf_gen ▸ addOrderOf_dvd_natCard gen.toE
  have hle := card_curve_le
  have hpos : 0 < Nat.card curve.Point := Nat.card_pos
  have h3 : 2 * Config.p + 1 < 3 * Config.n := by decide +kernel
  have hm2 : m < 3 := by
    by_contra hge
    have := Nat.mul_le_mul_left Config.n (not_lt.1 hge)
    omega
  interval_cases m
  · omega
  · omega
  · have : Fact (Nat.Prime 2) := ⟨Nat.prime_two⟩
    obtain ⟨A, hA⟩ := exists_prime_addOrderOf_dvd_card' (G := curve.Point) 2 ⟨Config.n, by omega⟩
    have h2 : A + A = 0 := by rw [← two_nsmul, ← hA, addOrderOf_nsmul_eq_zero]
    rw [two_torsion h2, addOrderOf_zero] at hA
    omega

theorem n_nsmul (A : curve.Point) : Config.n • A = 0 := by
  rw [← card_curve]
  exact card_nsmul_eq_zero'

/-- A multiple depends on the scalar modulo `n` only (R24). -/
theorem mod_n_nsmul (k : Nat) (A : curve.Point) : (k % Config.n) • A = k • A := by
  conv_rhs => rw [← Nat.div_add_mod k Config.n, add_nsmul, mul_comm, mul_nsmul', n_nsmul, nsmul_zero, zero_add]

theorem addOrderOf_eq_n {A : curve.Point} (hA : A ≠ 0) : addOrderOf A = Config.n := by
  have : Fact (Nat.Prime Config.n) := ⟨n_prime⟩
  exact addOrderOf_eq_prime (n_nsmul A) hA

/-- A multiple is the identity only for a scalar congruent to 0 (R24). -/
theorem nsmul_eq_zero_iff (k : Nat) {A : curve.Point} (hA : A ≠ 0) : k • A = 0 ↔ k % Config.n = 0 := by
  rw [← addOrderOf_dvd_iff_nsmul_eq_zero, addOrderOf_eq_n hA, Nat.dvd_iff_mod_eq_zero]

end
end Sys2Proof.Machine
end

