-- ==== Sys2Proof/Laws/Recovery.lean ====
section
/-! SUPPORT. What `inv` (R19), `lift_x` (R26, R27) and `recover` (R110) answer, in the terms of the group. -/

namespace Sys2Proof.Machine

open Sys2Proof

/-- The Fermat inverse is the inverse modulo a prime (R19). -/
theorem inv_mul_mod {m a : Nat} (hm : m.Prime) (ha : a % m ≠ 0) : (inv a m * a) % m = 1 := by
  have : Fact m.Prime := ⟨hm⟩
  have h2 := hm.two_le
  have h0 : (a : ZMod m) ≠ 0 := by
    rw [Ne, ZMod.natCast_eq_zero_iff, Nat.dvd_iff_mod_eq_zero]
    exact ha
  have h1 : ((inv a m * a : Nat) : ZMod m) = ((1 : Nat) : ZMod m) := by
    rw [inv_eq, Nat.cast_mul, ZMod.natCast_mod, Nat.cast_pow, ← pow_succ,
      show m - 2 + 1 = m - 1 by omega, ZMod.pow_card_sub_one_eq_one h0, Nat.cast_one]
  rw [ZMod.natCast_eq_natCast_iff', Nat.mod_eq_of_lt hm.one_lt] at h1
  exact h1

theorem inv_lt {m : Nat} (hm : 0 < m) (a : Nat) : inv a m < m := by
  rw [inv_eq]
  exact Nat.mod_lt _ hm

/-- `recover` fails exactly in the cases R111 lists. -/
theorem recover_eq_none_iff (z r s v : Nat) :
    recover z r s v = none ↔
      2 ≤ v ∨ r = 0 ∨ Config.n ≤ r ∨ s = 0 ∨ Config.n ≤ s ∨ liftX r v = none := by
  rw [recover]
  split_ifs with h1 h2 h3
  · simp [h1]
  · rcases h2 with h | h <;> simp [h]
  · rcases h3 with h | h <;> simp [h]
  · cases hl : liftX r v with
    | none => simp
    | some R => simp; omega

theorem parity_sub {y : Nat} (hy : y < Config.p) (h0 : y ≠ 0) : (Config.p - y) % Config.p % 2 ≠ y % 2 := by
  have h3 : Config.p % 2 = 1 := by decide
  have h := Nat.mod_eq_of_lt (show Config.p - y < Config.p by omega)
  omega

section
variable [Fact (Nat.Prime Config.p)]

/-- The power `(p + 1) / 4` of a square is a root of it, as `p` is 3 modulo 4 (R26). -/
theorem sqrt_pow (y : Fp) : (y ^ 2) ^ Config.sqrtExp = y ∨ (y ^ 2) ^ Config.sqrtExp = -y := by
  rcases eq_or_ne y 0 with rfl | hy
  · left
    rw [zero_pow two_ne_zero, zero_pow (by decide +kernel)]
  · have hexp : 2 * Config.sqrtExp = Config.p / 2 + 1 := by decide +kernel
    have hsq : (y ^ (Config.p / 2)) * (y ^ (Config.p / 2)) = 1 := by
      rw [← pow_add, show Config.p / 2 + Config.p / 2 = Config.p - 1 by decide +kernel,
        ZMod.pow_card_sub_one_eq_one hy]
    rw [← pow_mul, hexp, pow_succ]
    rcases mul_self_eq_one_iff.1 hsq with h | h <;> simp [h]

theorem y_nat_ne_zero {x y : Nat} (h : onCurve x y = true) : y ≠ 0 := by
  rintro rfl
  exact y_ne_zero h Nat.cast_zero

theorem t_cast (x : Nat) : (((x * x * x + Config.curveB) % Config.p : Nat) : Fp) = (x : Fp) ^ 3 + 7 := by
  rw [cast_mod_p, Config.curveB]
  push_cast
  ring

/-- `lift_x` answers a point of the curve with that `x` and that parity (R26). -/
theorem liftX_sound {x par : Nat} {Q : Point} (hpar : par < 2) (h : liftX x par = some Q) :
    ∃ y, Q = .affine x y ∧ onCurve x y = true ∧ y % 2 = par := by
  rw [liftX] at h
  split at h
  · simp at h
  rename_i hx
  simp only at h
  set y := modexp ((x * x * x + Config.curveB) % Config.p) Config.sqrtExp Config.p with hy
  have hylt : y < Config.p := by rw [hy, modexp_eq]; exact Nat.mod_lt _ p_pos
  split at h
  · simp at h
  rename_i hroot
  have hon : onCurve x y = true := by
    rw [onCurve_iff]
    refine ⟨by omega, hylt, ?_⟩
    have := congrArg (Nat.cast (R := Fp)) (not_not.1 hroot)
    rw [cast_mod_p, t_cast] at this
    rw [← this]; push_cast; ring
  split at h
  · rename_i hp
    have hneg := onE_ecNeg (P := .affine x y) hon
    refine ⟨_, (Option.some.inj h).symm, hneg, ?_⟩
    have := parity_sub hylt (y_nat_ne_zero hon)
    omega
  · rename_i hp
    exact ⟨y, (Option.some.inj h).symm, hon, not_not.1 hp⟩

/-- Every point of the curve is lifted from its `x` and the parity of its `y` (R26). -/
theorem liftX_of_onCurve {x y : Nat} (h : onCurve x y = true) : liftX x (y % 2) = some (.affine x y) := by
  obtain ⟨hx, hy, he⟩ := (onCurve_iff x y).1 h
  have hc : ((modexp ((x * x * x + Config.curveB) % Config.p) Config.sqrtExp Config.p : Nat) : Fp) =
      ((y : Fp) ^ 2) ^ Config.sqrtExp := by
    rw [modexp_eq, cast_mod_p, Nat.cast_pow, t_cast, he]
  rw [liftX, if_neg (by omega)]
  simp only
  set y0 := modexp ((x * x * x + Config.curveB) % Config.p) Config.sqrtExp Config.p with hy0
  have hylt : y0 < Config.p := by rw [hy0, modexp_eq]; exact Nat.mod_lt _ p_pos
  have hroot : y0 * y0 % Config.p = (x * x * x + Config.curveB) % Config.p := by
    rw [← Nat.mod_mod (x * x * x + Config.curveB), ← cast_eq_iff_mod, t_cast, Nat.cast_mul, hc, ← he]
    rcases sqrt_pow (y : Fp) with h | h <;> rw [h] <;> ring
  rw [if_neg (not_not.2 hroot)]
  rcases sqrt_pow (y : Fp) with h' | h'
  · have : y0 = y := (cast_inj_p hylt hy).1 (hc.trans h')
    rw [this, if_neg (by simp)]
  · have hn : y0 = (Config.p - y) % Config.p :=
      (cast_inj_p hylt (Nat.mod_lt _ p_pos)).1 (by rw [hc, h', cast_neg_p hy.le])
    have hyne := y_nat_ne_zero h
    have hpar := parity_sub hy hyne
    have h1 := Nat.mod_eq_of_lt (show Config.p - y < Config.p by omega)
    have h2 : (Config.p - y0) % Config.p = y := by
      rw [hn, h1, Nat.mod_eq_of_lt (by omega)]
      omega
    rw [if_pos (by rw [hn]; exact hpar), h2]

/-- `lift_x` fails only where no point has that `x` (R26). -/
theorem liftX_eq_none_iff (x : Nat) {par : Nat} (hpar : par < 2) :
    liftX x par = none ↔ ∀ y, onCurve x y = false := by
  constructor
  · intro h y
    by_contra hon
    rw [Bool.not_eq_false] at hon
    by_cases hp : y % 2 = par
    · rw [← hp, liftX_of_onCurve hon] at h
      simp at h
    · have hneg : onCurve x ((Config.p - y) % Config.p) = true := onE_ecNeg (P := .affine x y) hon
      have hpy := parity_sub ((onCurve_iff _ _).1 hon).2.1 (y_nat_ne_zero hon)
      rw [show par = (Config.p - y) % Config.p % 2 by omega, liftX_of_onCurve hneg] at h
      simp at h
  · intro h
    cases hl : liftX x par with
    | none => rfl
    | some Q =>
      obtain ⟨y, -, hon, -⟩ := liftX_sound hpar hl
      rw [h y] at hon
      simp at hon

/-- No point has `x = 0` (R27). -/
theorem x_ne_zero {x y : Nat} (h : onCurve x y = true) : x ≠ 0 := by
  rintro rfl
  have h0 : liftX 0 (y % 2) = none := by
    rcases Nat.mod_two_eq_zero_or_one y with hy | hy <;> rw [hy] <;> decide +kernel
  rw [liftX_of_onCurve h] at h0
  simp at h0

/-! ## Recovery -/

/-- On a legal tuple `recover` answers the point `inv(r) • (s • R - z • G)` (R110). -/
theorem recover_spec {z r s v : Nat} {R : Point} (hv : v < 2) (hr0 : r ≠ 0) (hrn : r < Config.n) (hs0 : s ≠ 0)
    (hsn : s < Config.n) (hR : liftX r v = some R) :
    ∃ Q, recover z r s v = some Q ∧ Q.onE ∧
      Q.toE = inv r Config.n • (s • R.toE - (z % Config.n) • gen.toE) := by
  obtain ⟨y, rfl, hon, -⟩ := liftX_sound hv hR
  have hRon : (Point.affine r y).onE := hon
  have hz : z % Config.n < 2 ^ 256 := mod_n_lt z
  have hzG := onE_ecMul (k := z % Config.n) onE_gen
  have hsum := onE_toE_ecAdd (onE_ecMul (k := s) hRon) (onE_ecNeg hzG)
  have hu : inv r Config.n < 2 ^ 256 := (inv_lt n_pos r).trans n_lt_word
  refine ⟨ecMul (inv r Config.n) (ecAdd (ecMul s (.affine r y)) (ecNeg (ecMul (z % Config.n) gen))), ?_,
    onE_ecMul hsum.1, ?_⟩
  · rw [recover, if_neg (by omega), if_neg (by omega), if_neg (by omega), hR]
  · rw [toE_ecMul hu hsum.1, hsum.2, toE_ecMul (hsn.trans n_lt_word) hRon, toE_ecNeg hzG, toE_ecMul hz onE_gen,
      sub_eq_add_neg]

/-- Every result of `recover` is a point of the curve (R33). -/
theorem onE_recover {z r s v : Nat} {Q : Point} (h : recover z r s v = some Q) : Q.onE := by
  have hne : ¬ recover z r s v = none := by simp [h]
  rw [recover_eq_none_iff] at hne
  push Not at hne
  obtain ⟨hv, hr0, hrn, hs0, hsn, hl⟩ := hne
  obtain ⟨R, hR⟩ := Option.ne_none_iff_exists'.1 hl
  obtain ⟨Q', hQ', hon, -⟩ := recover_spec (z := z) hv hr0 hrn hs0 hsn hR
  rw [h] at hQ'
  rwa [Option.some.inj hQ']

/-- `s = k r` cancels against the inverse of `r`. -/
theorem inv_mul_nsmul {r : Nat} (hr0 : r ≠ 0) (hrn : r < Config.n) (k : Nat) (A : curve.Point) :
    inv r Config.n • ((k * r) % Config.n) • A = k • A := by
  have h := inv_mul_mod n_prime (a := r) (by rw [Nat.mod_eq_of_lt hrn]; exact hr0)
  rw [mod_n_nsmul, ← mul_nsmul', ← mod_n_nsmul (inv r Config.n * (k * r)),
    show inv r Config.n * (k * r) = k * (inv r Config.n * r) by ring, Nat.mul_mod, h, mul_one, Nat.mod_mod,
    mod_n_nsmul]

/-- The tuple of `ECMUL` gives `k` times the point (R114). -/
theorem recover_mul {x y k : Nat} (hon : onCurve x y = true) (hx : x < Config.n) (hk : k % Config.n ≠ 0) :
    ∃ Q, recover 0 x ((k * x) % Config.n) (y % 2) = some Q ∧ Q.onE ∧ Q.toE = k • Point.toE (.affine x y) := by
  have hx0 := x_ne_zero hon
  have hs0 : (k * x) % Config.n ≠ 0 := by
    intro h
    rcases (Nat.Prime.dvd_mul n_prime).1 (Nat.dvd_of_mod_eq_zero h) with h | h
    · exact hk (Nat.mod_eq_zero_of_dvd h)
    · exact absurd (Nat.le_of_dvd (by omega) h) (by omega)
  obtain ⟨Q, hQ, hQon, hE⟩ := recover_spec (z := 0) (Nat.mod_lt y two_pos) hx0 hx hs0 (Nat.mod_lt _ n_pos)
    (liftX_of_onCurve hon)
  refine ⟨Q, hQ, hQon, ?_⟩
  rw [hE, Nat.zero_mod, zero_nsmul, sub_zero, inv_mul_nsmul hx0 hx]

/-- The tuple of `TWEAK` gives `P + t G` (R121). -/
theorem recover_tweak {x y t : Nat} (hon : onCurve x y = true) (hx : x < Config.n) :
    ∃ Q, recover ((Config.n - (t * x) % Config.n) % Config.n) x x (y % 2) = some Q ∧ Q.onE ∧
      Q.toE = Point.toE (.affine x y) + t • gen.toE := by
  have hx0 := x_ne_zero hon
  obtain ⟨Q, hQ, hQon, hE⟩ := recover_spec (z := (Config.n - (t * x) % Config.n) % Config.n)
    (Nat.mod_lt y two_pos) hx0 hx hx0 hx (liftX_of_onCurve hon)
  refine ⟨Q, hQ, hQon, ?_⟩
  have hz : ((Config.n - (t * x) % Config.n) % Config.n % Config.n) • gen.toE = -(((t * x) % Config.n) • gen.toE) := by
    rw [Nat.mod_mod, mod_n_nsmul, eq_neg_iff_add_eq_zero, ← add_nsmul,
      Nat.sub_add_cancel (Nat.mod_lt _ n_pos).le, n_nsmul]
  have h1 := inv_mul_nsmul hx0 hx 1 (Point.toE (.affine x y))
  rw [one_mul, Nat.mod_eq_of_lt hx, one_nsmul] at h1
  rw [hE, hz, sub_neg_eq_add, nsmul_add, h1, inv_mul_nsmul hx0 hx]

end
end Sys2Proof.Machine
end

