-- ==== Sys2Proof/Laws/State.lean ====
section
/-! SUPPORT. One lemma per field per update of the state, and reads after writes of the two register files. -/

namespace Sys2Proof.Machine

open Sys2Proof

/-! ## `writeW` -/

@[simp] theorem State.writeW_w (s : State) (i : WIdx) (v : Word) : (s.writeW i v).w = s.w.set i v := rfl
@[simp] theorem State.writeW_pt (s : State) (i : WIdx) (v : Word) : (s.writeW i v).pt = s.pt := rfl
@[simp] theorem State.writeW_err (s : State) (i : WIdx) (v : Word) : (s.writeW i v).err = s.err := rfl
@[simp] theorem State.writeW_t (s : State) (i : WIdx) (v : Word) : (s.writeW i v).t = s.t := rfl
@[simp] theorem State.writeW_cmd (s : State) (i : WIdx) (v : Word) : (s.writeW i v).cmd = s.cmd := rfl
@[simp] theorem State.writeW_host (s : State) (i : WIdx) (v : Word) : (s.writeW i v).host = s.host := rfl
@[simp] theorem State.writeW_received (s : State) (i : WIdx) (v : Word) : (s.writeW i v).received = s.received := rfl
@[simp] theorem State.writeW_readPt (s : State) (i : WIdx) (v : Word) (k : PIdx) : (s.writeW i v).readPt k = s.readPt k := rfl

/-! ## `writePt` -/

@[simp] theorem State.writePt_w (s : State) (j : PIdx) (r : PointReg) : (s.writePt j r).w = s.w := rfl
@[simp] theorem State.writePt_pt (s : State) (j : PIdx) (r : PointReg) : (s.writePt j r).pt = s.pt.set j r := rfl
@[simp] theorem State.writePt_err (s : State) (j : PIdx) (r : PointReg) : (s.writePt j r).err = s.err := rfl
@[simp] theorem State.writePt_t (s : State) (j : PIdx) (r : PointReg) : (s.writePt j r).t = s.t := rfl
@[simp] theorem State.writePt_cmd (s : State) (j : PIdx) (r : PointReg) : (s.writePt j r).cmd = s.cmd := rfl
@[simp] theorem State.writePt_host (s : State) (j : PIdx) (r : PointReg) : (s.writePt j r).host = s.host := rfl
@[simp] theorem State.writePt_received (s : State) (j : PIdx) (r : PointReg) : (s.writePt j r).received = s.received := rfl
@[simp] theorem State.writePt_readW (s : State) (j : PIdx) (r : PointReg) (k : WIdx) : (s.writePt j r).readW k = s.readW k := rfl

/-! ## `setT` -/

@[simp] theorem State.setT_w (s : State) (b : Bool) : (s.setT b).w = s.w := rfl
@[simp] theorem State.setT_pt (s : State) (b : Bool) : (s.setT b).pt = s.pt := rfl
@[simp] theorem State.setT_err (s : State) (b : Bool) : (s.setT b).err = s.err := rfl
@[simp] theorem State.setT_t (s : State) (b : Bool) : (s.setT b).t = b := rfl
@[simp] theorem State.setT_cmd (s : State) (b : Bool) : (s.setT b).cmd = s.cmd := rfl
@[simp] theorem State.setT_host (s : State) (b : Bool) : (s.setT b).host = s.host := rfl
@[simp] theorem State.setT_received (s : State) (b : Bool) : (s.setT b).received = s.received := rfl
@[simp] theorem State.setT_readW (s : State) (b : Bool) (k : WIdx) : (s.setT b).readW k = s.readW k := rfl
@[simp] theorem State.setT_readPt (s : State) (b : Bool) (k : PIdx) : (s.setT b).readPt k = s.readPt k := rfl

/-! ## `setErr` -/

@[simp] theorem State.setErr_w (s : State) (e : BitVec 4) : (s.setErr e).w = s.w := rfl
@[simp] theorem State.setErr_pt (s : State) (e : BitVec 4) : (s.setErr e).pt = s.pt := rfl
@[simp] theorem State.setErr_err (s : State) (e : BitVec 4) : (s.setErr e).err = e := rfl
@[simp] theorem State.setErr_t (s : State) (e : BitVec 4) : (s.setErr e).t = s.t := rfl
@[simp] theorem State.setErr_cmd (s : State) (e : BitVec 4) : (s.setErr e).cmd = s.cmd := rfl
@[simp] theorem State.setErr_host (s : State) (e : BitVec 4) : (s.setErr e).host = s.host := rfl
@[simp] theorem State.setErr_received (s : State) (e : BitVec 4) : (s.setErr e).received = s.received := rfl
@[simp] theorem State.setErr_readW (s : State) (e : BitVec 4) (k : WIdx) : (s.setErr e).readW k = s.readW k := rfl
@[simp] theorem State.setErr_readPt (s : State) (e : BitVec 4) (k : PIdx) : (s.setErr e).readPt k = s.readPt k := rfl

/-! ## `setCmd` -/

@[simp] theorem State.setCmd_w (s : State) (c : CmdWord) : (s.setCmd c).w = s.w := rfl
@[simp] theorem State.setCmd_pt (s : State) (c : CmdWord) : (s.setCmd c).pt = s.pt := rfl
@[simp] theorem State.setCmd_err (s : State) (c : CmdWord) : (s.setCmd c).err = s.err := rfl
@[simp] theorem State.setCmd_t (s : State) (c : CmdWord) : (s.setCmd c).t = s.t := rfl
@[simp] theorem State.setCmd_cmd (s : State) (c : CmdWord) : (s.setCmd c).cmd = c := rfl
@[simp] theorem State.setCmd_host (s : State) (c : CmdWord) : (s.setCmd c).host = s.host := rfl
@[simp] theorem State.setCmd_received (s : State) (c : CmdWord) : (s.setCmd c).received = s.received := rfl
@[simp] theorem State.setCmd_readW (s : State) (c : CmdWord) (k : WIdx) : (s.setCmd c).readW k = s.readW k := rfl
@[simp] theorem State.setCmd_readPt (s : State) (c : CmdWord) (k : PIdx) : (s.setCmd c).readPt k = s.readPt k := rfl

/-! ## Reads after writes -/

@[simp] theorem State.readW_writeW_self (s : State) (i : WIdx) (v : Word) : (s.writeW i v).readW i = v := by
  simp [State.readW]

theorem State.readW_writeW_ne (s : State) {i k : WIdx} (v : Word) (h : k ≠ i) :
    (s.writeW i v).readW k = s.readW k := by
  have : i.val ≠ k.val := fun e => h (Fin.ext e.symm)
  simp [State.readW, this]

@[simp] theorem State.readPt_writePt_self (s : State) (j : PIdx) (r : PointReg) : (s.writePt j r).readPt j = r := by
  simp [State.readPt]

theorem State.readPt_writePt_ne (s : State) {j k : PIdx} (r : PointReg) (h : k ≠ j) :
    (s.writePt j r).readPt k = s.readPt k := by
  have : j.val ≠ k.val := fun e => h (Fin.ext e.symm)
  simp [State.readPt, this]

/-- Two states are equal when the block's registers read the same and the other fields agree. -/
theorem State.ext_read {s t : State} (hw : ∀ i, s.readW i = t.readW i) (hp : ∀ j, s.readPt j = t.readPt j)
    (he : s.err = t.err) (ht : s.t = t.t) (hc : s.cmd = t.cmd) (hh : s.host = t.host)
    (hr : s.received = t.received) : s = t := by
  have h1 : s.w = t.w := Vector.ext fun i h => hw ⟨i, h⟩
  have h2 : s.pt = t.pt := Vector.ext fun j h => hp ⟨j, h⟩
  cases s
  cases t
  simp_all

/-! ## Reset -/

@[simp] theorem State.reset_readW (i : WIdx) : State.reset.readW i = 0 := by
  simp [State.readW, State.reset]

@[simp] theorem State.reset_readPt (j : PIdx) : State.reset.readPt j = PointReg.zeroed := by
  simp [State.readPt, State.reset]

end Sys2Proof.Machine
end

