-- ==== Sys2Proof/Laws/Ops.lean ====
section
/-! SUPPORT. What each shared operation can do, said once: the ways a command ends (R17, R153), and one inversion
lemma per meaning that can fail, which the proofs about commands cite instead of unfolding it. -/

namespace Sys2Proof.Machine

open Sys2Proof

/-! ## The ends of a command -/

theorem raise_eq (e : ErrKind) (s : State) : raise e s = .next (s.setErr e.code) := rfl

theorem complete_eq (s : State) : complete s = .next (s.setErr 0) := rfl

theorem completeWord_eq (rd : WIdx) (v : Nat) (s : State) :
    completeWord rd v s = .next ((s.writeW rd (BitVec.ofNat 256 v)).setErr 0) := rfl

theorem completePoint_eq (pd : PIdx) (P : Point) (s : State) :
    completePoint pd P s = .next ((s.writePt pd P.toReg).setErr 0) := rfl

theorem completeFlag_eq (b : Bool) (s : State) : completeFlag b s = .next ((s.setT b).setErr 0) := rfl

/-- No error kind has the code of completion. -/
theorem code_ne_zero (e : ErrKind) : e.code ≠ 0 := by cases e <;> decide

theorem code_le_seven (e : ErrKind) : e.code.toNat ≤ 7 := by cases e <;> decide

/-! ## Points and registers -/

@[simp] theorem toReg_O : Point.O.toReg = PointReg.zeroed := rfl

/-- A point of the curve survives the round through a register. -/
theorem toPoint_toReg {P : Point} (h : P.onE) : P.toReg.toPoint = P := by
  cases P with
  | O => rfl
  | affine x y =>
    obtain ⟨hx, hy, -⟩ := (onCurve_iff x y).1 h
    have hp := p_lt_word
    simp only [Point.toReg, PointReg.toPoint, BitVec.toNat_ofNat, Bool.false_eq_true, if_false]
    rw [Nat.mod_eq_of_lt (hx.trans hp), Nat.mod_eq_of_lt (hy.trans hp)]

/-- What `valid` says of the Point a register denotes (R20). -/
theorem valid_iff (r : PointReg) : r.valid = true ↔ r.toPoint.onE := by
  cases h : r.inf <;> simp [PointReg.valid, PointReg.toPoint, Point.onE, h]

theorem valid_toReg {P : Point} (h : P.onE) : P.toReg.valid = true := by
  rw [valid_iff, toPoint_toReg h]
  exact h

/-- The non-identity operand check (R112). -/
theorem affineCoords_eq_some_iff (r : PointReg) (x y : Nat) :
    r.affineCoords = some (x, y) ↔ r.toPoint = .affine x y ∧ r.toPoint.onE := by
  cases h : r.inf
  · by_cases hon : onCurve r.x.toNat r.y.toNat = true
    · simp [PointReg.affineCoords, PointReg.toPoint, Point.onE, h, hon]
    · simp [PointReg.affineCoords, PointReg.toPoint, Point.onE, h, hon]
  · simp [PointReg.affineCoords, PointReg.toPoint, h]

theorem affineCoords_eq_none_iff (r : PointReg) :
    r.affineCoords = none ↔ r.inf = true ∨ onCurve r.x.toNat r.y.toNat = false := by
  cases h : r.inf <;> simp [PointReg.affineCoords, h]

/-! ## Meanings that can fail -/

theorem completeRecovery_cases (pd : PIdx) (Q : Option Point) (s : State) :
    (Q = none ∧ completeRecovery pd Q s = .next (s.setErr 5)) ∨
      ∃ P, Q = some P ∧ completeRecovery pd Q s = .next ((s.writePt pd P.toReg).setErr 0) := by
  cases Q with
  | none => exact Or.inl ⟨rfl, rfl⟩
  | some P => exact Or.inr ⟨P, rfl, rfl⟩

theorem execModexp_cases (rd ra rb rc : WIdx) (s : State) :
    (s.int rc = 0 ∧ execModexp rd ra rb rc s = .next (s.setErr 7)) ∨
      (s.int rc ≠ 0 ∧ execModexp rd ra rb rc s =
        .next ((s.writeW rd (BitVec.ofNat 256 (modexp (s.int ra) (s.int rb) (s.int rc)))).setErr 0)) := by
  unfold execModexp
  split
  · exact Or.inl ⟨‹_›, rfl⟩
  · exact Or.inr ⟨‹_›, rfl⟩

theorem inverseMod_cases (m : Nat) (rd ra : WIdx) (s : State) :
    (s.int ra % m = 0 ∧ inverseMod m rd ra s = .next (s.setErr 3)) ∨
      (s.int ra % m ≠ 0 ∧ inverseMod m rd ra s =
        .next ((s.writeW rd (BitVec.ofNat 256 (inv (s.int ra % m) m))).setErr 0)) := by
  unfold inverseMod
  simp only
  split
  · exact Or.inl ⟨‹_›, rfl⟩
  · exact Or.inr ⟨‹_›, rfl⟩

theorem execEcmul_cases (pd : PIdx) (ra : WIdx) (pb : PIdx) (s : State) :
    ((s.readPt pb).affineCoords = none ∧ execEcmul pd ra pb s = .next (s.setErr 1)) ∨
      ∃ x y, (s.readPt pb).affineCoords = some (x, y) ∧
        ((s.scalar ra = 0 ∧ execEcmul pd ra pb s = .next ((s.writePt pd PointReg.zeroed).setErr 0)) ∨
          (s.scalar ra ≠ 0 ∧ execEcmul pd ra pb s =
            completeRecovery pd (recover 0 x ((s.scalar ra * x) % Config.n) (y % 2)) s)) := by
  unfold execEcmul
  cases h : (s.readPt pb).affineCoords with
  | none => exact Or.inl ⟨rfl, rfl⟩
  | some xy =>
    obtain ⟨x, y⟩ := xy
    refine Or.inr ⟨x, y, rfl, ?_⟩
    simp only
    split
    · exact Or.inl ⟨‹_›, rfl⟩
    · exact Or.inr ⟨‹_›, rfl⟩

theorem execMulg_cases (pd : PIdx) (ra : WIdx) (s : State) :
    (s.scalar ra = 0 ∧ execMulg pd ra s = .next ((s.writePt pd PointReg.zeroed).setErr 0)) ∨
      (s.scalar ra ≠ 0 ∧ execMulg pd ra s =
        completeRecovery pd (recover 0 Config.gx ((s.scalar ra * Config.gx) % Config.n) (Config.gy % 2)) s) := by
  unfold execMulg
  simp only
  split
  · exact Or.inl ⟨‹_›, rfl⟩
  · exact Or.inr ⟨‹_›, rfl⟩

theorem execTweak_cases (pd pa : PIdx) (rb : WIdx) (s : State) :
    ((s.readPt pa).affineCoords = none ∧ execTweak pd pa rb s = .next (s.setErr 1)) ∨
      ∃ x y, (s.readPt pa).affineCoords = some (x, y) ∧ execTweak pd pa rb s =
        completeRecovery pd
          (recover ((Config.n - (s.scalar rb * x) % Config.n) % Config.n) x x (y % 2)) s := by
  unfold execTweak
  cases h : (s.readPt pa).affineCoords with
  | none => exact Or.inl ⟨rfl, rfl⟩
  | some xy => exact Or.inr ⟨xy.1, xy.2, rfl, rfl⟩

/-- `ECADD` is `ec_add` on valid operands, but for equal non-identity ones (R119). -/
theorem execEcadd_cases (pd pa pb : PIdx) (s : State) :
    (¬ ((s.readPt pa).valid = true ∧ (s.readPt pb).valid = true) ∧ execEcadd pd pa pb s = .next (s.setErr 1)) ∨
      ((s.readPt pa).valid = true ∧ (s.readPt pb).valid = true ∧
        (((s.readPt pa).toPoint ≠ .O ∧ (s.readPt pa).toPoint = (s.readPt pb).toPoint ∧
            execEcadd pd pa pb s = .next (s.setErr 4)) ∨
          (((s.readPt pa).toPoint = .O ∨ (s.readPt pa).toPoint ≠ (s.readPt pb).toPoint) ∧
            execEcadd pd pa pb s =
              .next ((s.writePt pd (ecAdd (s.readPt pa).toPoint (s.readPt pb).toPoint).toReg).setErr 0)))) := by
  have hp := fact_p
  unfold execEcadd
  simp only
  by_cases h1 : (s.readPt pa).valid = true
  · by_cases h2 : (s.readPt pb).valid = true
    · rw [if_neg (by simp [h1, h2])]
      refine Or.inr ⟨h1, h2, ?_⟩
      rw [valid_iff] at h1 h2
      revert h1 h2
      generalize (s.readPt pa).toPoint = P
      generalize (s.readPt pb).toPoint = Q
      intro h1 h2
      cases P with
      | O => exact Or.inr ⟨Or.inl rfl, by simp [ecAdd, completePoint_eq]⟩
      | affine x1 y1 =>
        cases Q with
        | O => exact Or.inr ⟨Or.inr (by simp), by simp [ecAdd, completePoint_eq]⟩
        | affine x2 y2 =>
          simp only
          split_ifs with ha hb
          · exact Or.inl ⟨by simp, by simp [ha], rfl⟩
          · refine Or.inr ⟨Or.inr (by simpa using ha), ?_⟩
            subst hb
            rcases y_eq_or_neg h1 h2 with h | h
            · exact absurd ⟨rfl, h⟩ ha
            · simp [ecAdd, h, completePoint_eq]
          · refine Or.inr ⟨Or.inr (by simpa using ha), ?_⟩
            simp [ecAdd, hb, completePoint_eq]
    · rw [if_pos (by simp [h2])]
      exact Or.inl ⟨by simp [h2], rfl⟩
  · rw [if_pos (by simp [h1])]
    exact Or.inl ⟨by simp [h1], rfl⟩

theorem execCompress_cases (rd : WIdx) (pa : PIdx) (s : State) :
    ((s.readPt pa).affineCoords = none ∧ execCompress rd pa s = .next (s.setErr 1)) ∨
      ∃ x y, (s.readPt pa).affineCoords = some (x, y) ∧ execCompress rd pa s =
        .next (((s.setT (y % 2 == 1)).writeW rd (BitVec.ofNat 256 x)).setErr 0) := by
  unfold execCompress
  cases h : (s.readPt pa).affineCoords with
  | none => exact Or.inl ⟨rfl, rfl⟩
  | some xy => exact Or.inr ⟨xy.1, xy.2, rfl, rfl⟩

theorem execDecompress_cases (pd : PIdx) (ra : WIdx) (imm : BitVec 8) (s : State) :
    (liftX (s.int ra) (imm.toNat % 2) = none ∧ execDecompress pd ra imm s = .next (s.setErr 2)) ∨
      ∃ P, liftX (s.int ra) (imm.toNat % 2) = some P ∧ execDecompress pd ra imm s =
        .next ((s.writePt pd P.toReg).setErr 0) := by
  unfold execDecompress
  cases h : liftX (s.int ra) (imm.toNat % 2) with
  | none => exact Or.inl ⟨rfl, rfl⟩
  | some P => exact Or.inr ⟨P, rfl, rfl⟩

theorem execNegp_cases (pd pa : PIdx) (s : State) :
    ((s.readPt pa).inf = true ∧ execNegp pd pa s = .next ((s.writePt pd PointReg.zeroed).setErr 0)) ∨
      ((s.readPt pa).inf = false ∧ execNegp pd pa s =
        .next ((s.writePt pd (Point.affine (s.readPt pa).x.toNat
          ((Config.p - (s.readPt pa).y.toNat % Config.p) % Config.p)).toReg).setErr 0)) := by
  unfold execNegp
  cases h : (s.readPt pa).inf with
  | true => left; simp [PointReg.toPoint, h, completePoint_eq]
  | false => right; simp [PointReg.toPoint, h, completePoint_eq]

end Sys2Proof.Machine
end

