-- ==== Sys2Proof/Laws/Commands.lean ====
section
/-! SUPPORT. Said once: what a command can do. `command_effect` is the inversion lemma of `exec`; a proof about all
commands takes its five cases and does not open the meanings. -/

namespace Sys2Proof.Machine

open Sys2Proof

/-- The point `NEGP` writes (R142). -/
def negpPoint : Point → Point
  | .O => .O
  | .affine x y => .affine x ((Config.p - y % Config.p) % Config.p)

/-- Everything a command may leave of the state `s`, with what its footprint says of it (R32, R35, R38, R153). -/
inductive CommandEffect (i : Instr) (s : State) : State → Prop
  /-- it failed: only `ERR` is written -/
  | failed (e : BitVec 4) (h0 : e ≠ 0) (h7 : e.toNat ≤ 7) : CommandEffect i s (s.setErr e)
  /-- it wrote a word register -/
  | word (d : WIdx) (v : Word) (hw : i.wordDest = some d) (hp : i.pointDest = none) (hf : i.writesFlag = false) :
      CommandEffect i s ((s.writeW d v).setErr 0)
  /-- it wrote a word register and `T` -/
  | wordFlag (d : WIdx) (v : Word) (b : Bool) (hw : i.wordDest = some d) (hp : i.pointDest = none)
      (hf : i.writesFlag = true) : CommandEffect i s (((s.setT b).writeW d v).setErr 0)
  /-- it wrote `T` -/
  | flag (b : Bool) (hw : i.wordDest = none) (hp : i.pointDest = none) (hf : i.writesFlag = true) :
      CommandEffect i s ((s.setT b).setErr 0)
  /-- it wrote a point register with a Point: one of the curve, but for `NEGP` -/
  | point (d : PIdx) (P : Point) (hw : i.wordDest = none) (hp : i.pointDest = some d) (hf : i.writesFlag = false)
      (hP : P.onE ∨ ∃ pa, i = .negp d pa ∧ P = negpPoint (s.readPt pa).toPoint) :
      CommandEffect i s ((s.writePt d P.toReg).setErr 0)

theorem completeRecovery_effect {i : Instr} {s : State} {pd : PIdx} {Q : Option Point} (hw : i.wordDest = none)
    (hp : i.pointDest = some pd) (hf : i.writesFlag = false) (hQ : ∀ P, Q = some P → P.onE) :
    ∃ t, completeRecovery pd Q s = .next t ∧ CommandEffect i s t := by
  rcases completeRecovery_cases pd Q s with ⟨_, e⟩ | ⟨P, h, e⟩
  · exact ⟨_, e, .failed 5 (by decide) (by decide)⟩
  · exact ⟨_, e, .point _ P hw hp hf (Or.inl (hQ P h))⟩

/-- Every command answers a next state, and one of the five effects is what it did. -/
theorem exists_command_effect (i : Instr) (s : State) : ∃ t, exec i s = .next t ∧ CommandEffect i s t := by
  have hp := fact_p
  cases i with
  | addP | addN | subP | subN | mulP | mulN | redP | redN | negs => exact ⟨_, rfl, .word _ _ rfl rfl rfl⟩
  | eqP | eqN | parP | parN => exact ⟨_, rfl, .flag _ rfl rfl rfl⟩
  | modexp rd ra rb rc =>
    rcases execModexp_cases rd ra rb rc s with ⟨_, e⟩ | ⟨_, e⟩
    · exact ⟨_, e, .failed 7 (by decide) (by decide)⟩
    · exact ⟨_, e, .word _ _ rfl rfl rfl⟩
  | invP rd ra =>
    rcases inverseMod_cases Config.p rd ra s with ⟨_, e⟩ | ⟨_, e⟩
    · exact ⟨_, e, .failed 3 (by decide) (by decide)⟩
    · exact ⟨_, e, .word _ _ rfl rfl rfl⟩
  | invN rd ra =>
    rcases inverseMod_cases Config.n rd ra s with ⟨_, e⟩ | ⟨_, e⟩
    · exact ⟨_, e, .failed 3 (by decide) (by decide)⟩
    · exact ⟨_, e, .word _ _ rfl rfl rfl⟩
  | recover pd ra rb rc v => exact completeRecovery_effect rfl rfl rfl fun P h => onE_recover h
  | ecmul pd ra pb =>
    rcases execEcmul_cases pd ra pb s with ⟨_, e⟩ | ⟨x, y, _, ⟨_, e⟩ | ⟨_, e⟩⟩
    · exact ⟨_, e, .failed 1 (by decide) (by decide)⟩
    · exact ⟨_, e, .point _ .O rfl rfl rfl (Or.inl trivial)⟩
    · simp only [exec, e]
      exact completeRecovery_effect rfl rfl rfl fun P h => onE_recover h
  | mulg pd ra =>
    rcases execMulg_cases pd ra s with ⟨_, e⟩ | ⟨_, e⟩
    · exact ⟨_, e, .point _ .O rfl rfl rfl (Or.inl trivial)⟩
    · simp only [exec, e]
      exact completeRecovery_effect rfl rfl rfl fun P h => onE_recover h
  | ecadd pd pa pb =>
    rcases execEcadd_cases pd pa pb s with ⟨_, e⟩ | ⟨h1, h2, ⟨_, _, e⟩ | ⟨_, e⟩⟩
    · exact ⟨_, e, .failed 1 (by decide) (by decide)⟩
    · exact ⟨_, e, .failed 4 (by decide) (by decide)⟩
    · exact ⟨_, e, .point _ _ rfl rfl rfl (Or.inl (onE_ecAdd ((valid_iff _).1 h1) ((valid_iff _).1 h2)))⟩
  | tweak pd pa rb =>
    rcases execTweak_cases pd pa rb s with ⟨_, e⟩ | ⟨x, y, _, e⟩
    · exact ⟨_, e, .failed 1 (by decide) (by decide)⟩
    · simp only [exec, e]
      exact completeRecovery_effect rfl rfl rfl fun P h => onE_recover h
  | compress rd pa =>
    rcases execCompress_cases rd pa s with ⟨_, e⟩ | ⟨x, y, _, e⟩
    · exact ⟨_, e, .failed 1 (by decide) (by decide)⟩
    · exact ⟨_, e, .wordFlag _ _ _ rfl rfl rfl⟩
  | decompress pd ra imm =>
    rcases execDecompress_cases pd ra imm s with ⟨_, e⟩ | ⟨P, h, e⟩
    · exact ⟨_, e, .failed 2 (by decide) (by decide)⟩
    · obtain ⟨y, rfl, hy, _⟩ := liftX_sound (Nat.mod_lt _ two_pos) h
      exact ⟨_, e, .point _ (.affine _ y) rfl rfl rfl (Or.inl hy)⟩
  | negp pd pa =>
    rcases execNegp_cases pd pa s with ⟨h, e⟩ | ⟨h, e⟩
    · refine ⟨_, e, .point _ .O rfl rfl rfl (Or.inl trivial)⟩
    · refine ⟨_, e, .point _ _ rfl rfl rfl (Or.inr ⟨pa, rfl, ?_⟩)⟩
      simp [negpPoint, PointReg.toPoint, h]

theorem command_effect {i : Instr} {s t : State} (h : exec i s = .next t) : CommandEffect i s t := by
  obtain ⟨t', h', hs⟩ := exists_command_effect i s
  rw [h] at h'
  cases h'
  exact hs

/-- On a Point of the curve `NEGP` is `ec_neg` (R142). -/
theorem negpPoint_of_onE {P : Point} (h : P.onE) : negpPoint P = ecNeg P := by
  cases P with
  | O => rfl
  | affine x y =>
    obtain ⟨_, hy, _⟩ := (onCurve_iff _ _).1 h
    simp [negpPoint, ecNeg, Nat.mod_eq_of_lt hy]

/-- A value below `2^256` survives the round through a register. -/
theorem toNat_ofNat_word {v : Nat} (h : v < 2 ^ 256) : (BitVec.ofNat 256 v).toNat = v := by
  rw [BitVec.toNat_ofNat, Nat.mod_eq_of_lt h]

end Sys2Proof.Machine
end

