-- ==== Sys2Proof/Laws/Decode.lean ====
section
/-! SUPPORT. The fields of a packed word, a word as its fields, and what the operand checks accept: the facts
from which the round trips and the mask table follow. -/

namespace Sys2Proof

/-! ## Fields and `pack` (R61) -/

theorem pack_toNat (op : BitVec 8) (rd ra rb rc : BitVec 4) (imm : BitVec 8) :
    (pack op rd ra rb rc imm).toNat =
      op.toNat * 2 ^ 24 + rd.toNat * 2 ^ 20 + ra.toNat * 2 ^ 16 + rb.toNat * 2 ^ 12 + rc.toNat * 2 ^ 8 + imm.toNat := by
  have h2 := rd.isLt
  have h3 := ra.isLt
  have h4 := rb.isLt
  have h5 := rc.isLt
  have h6 := imm.isLt
  simp only [pack, BitVec.toNat_append]
  rw [← Nat.shiftLeft_add_eq_or_of_lt h2, ← Nat.shiftLeft_add_eq_or_of_lt h3, ← Nat.shiftLeft_add_eq_or_of_lt h4,
    ← Nat.shiftLeft_add_eq_or_of_lt h5, ← Nat.shiftLeft_add_eq_or_of_lt h6]
  simp only [Nat.shiftLeft_eq]
  ring

@[simp] theorem fieldOp_pack (op : BitVec 8) (rd ra rb rc : BitVec 4) (imm : BitVec 8) :
    fieldOp (pack op rd ra rb rc imm) = op := by
  apply BitVec.eq_of_toNat_eq
  simp only [fieldOp, BitVec.extractLsb'_toNat, pack_toNat, Nat.shiftRight_eq_div_pow]
  omega

@[simp] theorem fieldRd_pack (op : BitVec 8) (rd ra rb rc : BitVec 4) (imm : BitVec 8) :
    fieldRd (pack op rd ra rb rc imm) = rd := by
  apply BitVec.eq_of_toNat_eq
  simp only [fieldRd, BitVec.extractLsb'_toNat, pack_toNat, Nat.shiftRight_eq_div_pow]
  omega

@[simp] theorem fieldRa_pack (op : BitVec 8) (rd ra rb rc : BitVec 4) (imm : BitVec 8) :
    fieldRa (pack op rd ra rb rc imm) = ra := by
  apply BitVec.eq_of_toNat_eq
  simp only [fieldRa, BitVec.extractLsb'_toNat, pack_toNat, Nat.shiftRight_eq_div_pow]
  omega

@[simp] theorem fieldRb_pack (op : BitVec 8) (rd ra rb rc : BitVec 4) (imm : BitVec 8) :
    fieldRb (pack op rd ra rb rc imm) = rb := by
  apply BitVec.eq_of_toNat_eq
  simp only [fieldRb, BitVec.extractLsb'_toNat, pack_toNat, Nat.shiftRight_eq_div_pow]
  omega

@[simp] theorem fieldRc_pack (op : BitVec 8) (rd ra rb rc : BitVec 4) (imm : BitVec 8) :
    fieldRc (pack op rd ra rb rc imm) = rc := by
  apply BitVec.eq_of_toNat_eq
  simp only [fieldRc, BitVec.extractLsb'_toNat, pack_toNat, Nat.shiftRight_eq_div_pow]
  omega

@[simp] theorem fieldImm_pack (op : BitVec 8) (rd ra rb rc : BitVec 4) (imm : BitVec 8) :
    fieldImm (pack op rd ra rb rc imm) = imm := by
  apply BitVec.eq_of_toNat_eq
  simp only [fieldImm, BitVec.extractLsb'_toNat, pack_toNat, Nat.shiftRight_eq_div_pow]
  omega

/-- Every word is the pack of its fields: the six fields are the whole word (R61, R64). -/
theorem pack_fields (c : CmdWord) :
    pack (fieldOp c) (fieldRd c) (fieldRa c) (fieldRb c) (fieldRc c) (fieldImm c) = c := by
  apply BitVec.eq_of_toNat_eq
  have h := c.isLt
  simp only [pack_toNat, fieldOp, fieldRd, fieldRa, fieldRb, fieldRc, fieldImm, BitVec.extractLsb'_toNat,
    Nat.shiftRight_eq_div_pow]
  omega

theorem eq_iff_fields (c d : CmdWord) :
    c = d ↔ fieldOp c = fieldOp d ∧ fieldRd c = fieldRd d ∧ fieldRa c = fieldRa d ∧ fieldRb c = fieldRb d ∧
      fieldRc c = fieldRc d ∧ fieldImm c = fieldImm d := by
  refine ⟨fun h => by simp [h], fun ⟨h1, h2, h3, h4, h5, h6⟩ => ?_⟩
  rw [← pack_fields c, ← pack_fields d, h1, h2, h3, h4, h5, h6]

/-- A mask acts on each field (R73). -/
theorem fields_and (c d : CmdWord) :
    fieldOp (c &&& d) = fieldOp c &&& fieldOp d ∧ fieldRd (c &&& d) = fieldRd c &&& fieldRd d ∧
      fieldRa (c &&& d) = fieldRa c &&& fieldRa d ∧ fieldRb (c &&& d) = fieldRb c &&& fieldRb d ∧
      fieldRc (c &&& d) = fieldRc c &&& fieldRc d ∧ fieldImm (c &&& d) = fieldImm c &&& fieldImm d := by
  refine ⟨?_, ?_, ?_, ?_, ?_, ?_⟩ <;> apply BitVec.eq_of_getLsbD_eq <;> intro i hi <;>
    simp [fieldOp, fieldRd, fieldRa, fieldRb, fieldRc, fieldImm, hi]

/-! ## Operand checks (R63, R64) -/

theorem wordIndex_eq_ok_iff (f : BitVec 4) (i : WIdx) : wordIndex f = .ok i ↔ f = wNibble i := by
  revert f i
  decide

theorem pointIndex_eq_ok_iff (f : BitVec 4) (j : PIdx) : pointIndex f = .ok j ↔ f = pNibble j := by
  revert f j
  decide

@[simp] theorem wordIndex_wNibble (i : WIdx) : wordIndex (wNibble i) = .ok i := (wordIndex_eq_ok_iff _ _).2 rfl

@[simp] theorem pointIndex_pNibble (j : PIdx) : pointIndex (pNibble j) = .ok j := (pointIndex_eq_ok_iff _ _).2 rfl

@[simp] theorem unused_zero {k : Nat} : unused (0 : BitVec k) = .ok () := by simp [unused]

theorem unused_eq_ok_iff {k : Nat} (f : BitVec k) (u : Unit) : unused f = .ok u ↔ f = 0 := by
  unfold unused
  split <;> simp_all

/-- A word-register nibble is one with bit 3 clear (R63, R73). -/
theorem exists_wNibble_iff (f : BitVec 4) : (∃ i, f = wNibble i) ↔ f &&& 0x8 = 0 := by
  revert f
  decide

/-- A point-register nibble is one with bits 3:2 clear (R63, R73). -/
theorem exists_pNibble_iff (f : BitVec 4) : (∃ j, f = pNibble j) ↔ f &&& 0xC = 0 := by
  revert f
  decide

end Sys2Proof
end

