-- ==== Sys2Proof/Laws/PerInstr.lean ====
section
/-! SUPPORT. The per-instruction families: what holds of each constructor of `Instr` as syntax. -/

namespace Sys2Proof.Laws.EncodedFields

open Sys2Proof

/-- The opcode of R66 and the five operand fields of R62 of an instruction's word. -/
def expected : Instr → BitVec 8 × BitVec 4 × BitVec 4 × BitVec 4 × BitVec 4 × BitVec 8
  | .addP rd ra rb => (0x10, wNibble rd, wNibble ra, wNibble rb, 0, 0)
  | .addN rd ra rb => (0x11, wNibble rd, wNibble ra, wNibble rb, 0, 0)
  | .subP rd ra rb => (0x12, wNibble rd, wNibble ra, wNibble rb, 0, 0)
  | .subN rd ra rb => (0x13, wNibble rd, wNibble ra, wNibble rb, 0, 0)
  | .mulP rd ra rb => (0x14, wNibble rd, wNibble ra, wNibble rb, 0, 0)
  | .mulN rd ra rb => (0x15, wNibble rd, wNibble ra, wNibble rb, 0, 0)
  | .redP rd ra => (0x16, wNibble rd, wNibble ra, 0, 0, 0)
  | .redN rd ra => (0x17, wNibble rd, wNibble ra, 0, 0, 0)
  | .eqP ra rb => (0x18, 0, wNibble ra, wNibble rb, 0, 0)
  | .eqN ra rb => (0x19, 0, wNibble ra, wNibble rb, 0, 0)
  | .parP ra => (0x1A, 0, wNibble ra, 0, 0, 0)
  | .parN ra => (0x1B, 0, wNibble ra, 0, 0, 0)
  | .modexp rd ra rb rc => (0x20, wNibble rd, wNibble ra, wNibble rb, wNibble rc, 0)
  | .invP rd ra => (0x22, wNibble rd, wNibble ra, 0, 0, 0)
  | .invN rd ra => (0x23, wNibble rd, wNibble ra, 0, 0, 0)
  | .recover pd ra rb rc v => (0x30, pNibble pd, wNibble ra, wNibble rb, wNibble rc, v)
  | .ecmul pd ra pb => (0x31, pNibble pd, wNibble ra, pNibble pb, 0, 0)
  | .mulg pd ra => (0x32, pNibble pd, wNibble ra, 0, 0, 0)
  | .ecadd pd pa pb => (0x33, pNibble pd, pNibble pa, pNibble pb, 0, 0)
  | .tweak pd pa rb => (0x34, pNibble pd, pNibble pa, wNibble rb, 0, 0)
  | .compress rd pa => (0x40, wNibble rd, pNibble pa, 0, 0, 0)
  | .decompress pd ra imm => (0x41, pNibble pd, wNibble ra, 0, 0, imm)
  | .negs rd ra => (0x50, wNibble rd, wNibble ra, 0, 0, 0)
  | .negp pd pa => (0x51, pNibble pd, pNibble pa, 0, 0, 0)

/-- The fields a decoder extracts from the word of `i` are those of its format. -/
def Statement (i : Instr) : Prop :=
  (fieldOp (encode i), fieldRd (encode i), fieldRa (encode i), fieldRb (encode i), fieldRc (encode i),
    fieldImm (encode i)) = expected i

theorem addP (rd ra rb : WIdx) : Statement (.addP rd ra rb) := by simp [Statement, expected, encode]
theorem addN (rd ra rb : WIdx) : Statement (.addN rd ra rb) := by simp [Statement, expected, encode]
theorem subP (rd ra rb : WIdx) : Statement (.subP rd ra rb) := by simp [Statement, expected, encode]
theorem subN (rd ra rb : WIdx) : Statement (.subN rd ra rb) := by simp [Statement, expected, encode]
theorem mulP (rd ra rb : WIdx) : Statement (.mulP rd ra rb) := by simp [Statement, expected, encode]
theorem mulN (rd ra rb : WIdx) : Statement (.mulN rd ra rb) := by simp [Statement, expected, encode]
theorem redP (rd ra : WIdx) : Statement (.redP rd ra) := by simp [Statement, expected, encode]
theorem redN (rd ra : WIdx) : Statement (.redN rd ra) := by simp [Statement, expected, encode]
theorem eqP (ra rb : WIdx) : Statement (.eqP ra rb) := by simp [Statement, expected, encode]
theorem eqN (ra rb : WIdx) : Statement (.eqN ra rb) := by simp [Statement, expected, encode]
theorem parP (ra : WIdx) : Statement (.parP ra) := by simp [Statement, expected, encode]
theorem parN (ra : WIdx) : Statement (.parN ra) := by simp [Statement, expected, encode]
theorem modexp (rd ra rb rc : WIdx) : Statement (.modexp rd ra rb rc) := by simp [Statement, expected, encode]
theorem invP (rd ra : WIdx) : Statement (.invP rd ra) := by simp [Statement, expected, encode]
theorem invN (rd ra : WIdx) : Statement (.invN rd ra) := by simp [Statement, expected, encode]
theorem recover (pd : PIdx) (ra rb rc : WIdx) (v : BitVec 8) : Statement (.recover pd ra rb rc v) := by simp [Statement, expected, encode]
theorem ecmul (pd : PIdx) (ra : WIdx) (pb : PIdx) : Statement (.ecmul pd ra pb) := by simp [Statement, expected, encode]
theorem mulg (pd : PIdx) (ra : WIdx) : Statement (.mulg pd ra) := by simp [Statement, expected, encode]
theorem ecadd (pd pa pb : PIdx) : Statement (.ecadd pd pa pb) := by simp [Statement, expected, encode]
theorem tweak (pd pa : PIdx) (rb : WIdx) : Statement (.tweak pd pa rb) := by simp [Statement, expected, encode]
theorem compress (rd : WIdx) (pa : PIdx) : Statement (.compress rd pa) := by simp [Statement, expected, encode]
theorem decompress (pd : PIdx) (ra : WIdx) (imm : BitVec 8) : Statement (.decompress pd ra imm) := by simp [Statement, expected, encode]
theorem negs (rd ra : WIdx) : Statement (.negs rd ra) := by simp [Statement, expected, encode]
theorem negp (pd pa : PIdx) : Statement (.negp pd pa) := by simp [Statement, expected, encode]

end Sys2Proof.Laws.EncodedFields
end

