-- ==== Sys2Proof/Laws/Window.lean ====
section
/-! SUPPORT. The register window: the map of R46 as equations, and a 32-bit slice of a register read after it or
another slice was written. -/

namespace Sys2Proof.Machine

open Sys2Proof

/-! ## The map (R46) -/

theorem place_cmd : place 0x000 = .cmd := rfl

theorem place_status : place 0x004 = .status := rfl

theorem place_word (i k : Fin 8) : place (0x100 + 0x20 * i.val + 4 * k.val) = .word i k := by
  revert i k
  decide

theorem place_ptX (j : Fin 4) (k : Fin 8) : place (0x200 + 0x80 * j.val + 4 * k.val) = .ptX j k := by
  revert j k
  decide

theorem place_ptY (j : Fin 4) (k : Fin 8) : place (0x220 + 0x80 * j.val + 4 * k.val) = .ptY j k := by
  revert j k
  decide

theorem place_ptInf (j : Fin 4) : place (0x240 + 0x80 * j.val) = .ptInf j := by
  revert j
  decide

theorem admitted_iff (off : Nat) : admitted off = true ↔ off < 0x400 ∧ off % 4 = 0 := by
  rw [admitted, Bool.and_eq_true, decide_eq_true_iff, beq_iff_eq]
  exact Iff.rfl

/-- The offset of a place; a reserved place has none of its own. -/
def offsetOf : Place → Nat
  | .cmd => 0x000
  | .status => 0x004
  | .reserved => 0x008
  | .word i k => 0x100 + 0x20 * i.val + 4 * k.val
  | .ptX j k => 0x200 + 0x80 * j.val + 4 * k.val
  | .ptY j k => 0x220 + 0x80 * j.val + 4 * k.val
  | .ptInf j => 0x240 + 0x80 * j.val

/-- The map has an inverse but for the reserved words: two admitted offsets never name one register word. -/
theorem offsetOf_place {off : Nat} (h : admitted off = true) (hr : place off ≠ .reserved) :
    offsetOf (place off) = off := by
  have key : ∀ x : Fin 256, place (4 * x.val) ≠ .reserved → offsetOf (place (4 * x.val)) = 4 * x.val := by
    decide +kernel
  obtain ⟨h1, h2⟩ := (admitted_iff off).1 h
  have e : 4 * (off / 4) = off := by omega
  have := key ⟨off / 4, by omega⟩
  simp only [e] at this
  exact this hr

/-! ## Slices (R46, R48) -/

theorem getLsbD_wordSlice (v : Word) (k : Fin 8) (b : Nat) :
    (wordSlice v k).getLsbD b = (decide (b < 32) && v.getLsbD (224 - 32 * k.val + b)) := by
  simp [wordSlice]

/-- Bit `b` of a register after word `k` was written. -/
theorem getLsbD_setWordSlice (v : Word) (k : Fin 8) (d : BusWord) (b : Nat) (hb : b < 256) :
    (setWordSlice v k d).getLsbD b =
      if 224 - 32 * k.val ≤ b ∧ b < 256 - 32 * k.val then d.getLsbD (b - (224 - 32 * k.val)) else v.getLsbD b := by
  have hk := k.isLt
  simp only [setWordSlice, BitVec.getLsbD_or, BitVec.getLsbD_and, BitVec.getLsbD_not, BitVec.getLsbD_shiftLeft,
    BitVec.getLsbD_setWidth, BitVec.getLsbD_allOnes, hb, decide_true, Bool.true_and]
  by_cases h1 : b < 224 - 32 * k.val
  · rw [if_neg (by omega)]
    simp [h1]
  · by_cases h2 : b < 256 - 32 * k.val
    · rw [if_pos (by omega)]
      have h3 : b - (224 - 32 * k.val) < 32 := by omega
      have h4 : b - (224 - 32 * k.val) < 256 := by omega
      simp [h1, h3, h4]
    · rw [if_neg (by omega)]
      have h3 : ¬ b - (224 - 32 * k.val) < 32 := by omega
      have h4 : d.getLsbD (b - (224 - 32 * k.val)) = false := BitVec.getLsbD_of_ge _ _ (by omega)
      simp [h1, h3, h4]

theorem wordSlice_setWordSlice_self (v : Word) (k : Fin 8) (d : BusWord) : wordSlice (setWordSlice v k d) k = d := by
  have hk := k.isLt
  apply BitVec.eq_of_getLsbD_eq
  intro b hb
  rw [getLsbD_wordSlice, getLsbD_setWordSlice _ _ _ _ (by omega), if_pos (by omega)]
  simp [hb]

theorem wordSlice_setWordSlice_ne (v : Word) {k l : Fin 8} (d : BusWord) (h : l ≠ k) :
    wordSlice (setWordSlice v k d) l = wordSlice v l := by
  have hk := k.isLt
  have hl := l.isLt
  have hne : l.val ≠ k.val := fun e => h (Fin.ext e)
  apply BitVec.eq_of_getLsbD_eq
  intro b hb
  rw [getLsbD_wordSlice, getLsbD_wordSlice, getLsbD_setWordSlice _ _ _ _ (by omega), if_neg (by omega)]

/-- A register is its eight words. -/
theorem eq_of_wordSlice_eq {v u : Word} (h : ∀ k, wordSlice v k = wordSlice u k) : v = u := by
  apply BitVec.eq_of_getLsbD_eq
  intro b hb
  have hk := congrArg (fun x : BusWord => x.getLsbD (b % 32)) (h ⟨7 - b / 32, by omega⟩)
  simp only [getLsbD_wordSlice] at hk
  have e : 224 - 32 * (7 - b / 32) + b % 32 = b := by omega
  simpa [e, Nat.mod_lt] using hk

end Sys2Proof.Machine
end

