-- ==== Sys2Proof/Tests/Slice0.lean ====
section
/-! SUPPORT. The model's own tests: the checks of WellFormed, words written out from the spec's encodings, at most
two steps per command with the results of the spec's vectors (file 95, V numbers), the window, and one witness for
the hypotheses of each statement. -/

namespace Sys2Proof.Machine.Tests

open Sys2Proof

-- one at a time: the evaluations run in the kernel, and a thread for each is more than the memory limit allows
set_option Elab.async false

/-! ## Helpers -/

/-- The reset state with some registers loaded. -/
def mk (ws : List (WIdx × Nat)) (ps : List (PIdx × PointReg)) : State :=
  ps.foldl (fun s p => s.writePt p.1 p.2)
    (ws.foldl (fun s p => s.writeW p.1 (BitVec.ofNat 256 p.2)) State.reset)

/-- The next state of a step, where there is one. -/
def nextOf (o : Host.Outcome State Fault Refusal) : Option State :=
  match o with
  | .next t => some t
  | _ => none

/-- The state after a write of the word `c` to `CMD`. -/
def after (s : State) (c : Nat) : Option State := nextOf (step (s.withFetchWord 32 c))

/-- A word register and `STATUS` after the word `c`. -/
def wordAfter (s : State) (c : Nat) (i : WIdx) : Option (Nat × Nat) :=
  (after s c).map fun t => ((t.readW i).toNat, t.statusWord.toNat)

/-- A point register and `STATUS` after the word `c`. -/
def pointAfter (s : State) (c : Nat) (j : PIdx) : Option (PointReg × Nat) :=
  (after s c).map fun t => (t.readPt j, t.statusWord.toNat)

/-- The word `c` reports the code `e`, is kept in `CMD`, and changes nothing else. -/
def reportsOnly (s : State) (c : Nat) (e : BitVec 4) : Bool :=
  after s c == some { s with cmd := BitVec.ofNat 32 c, err := e }

def va : Nat := 0x0123456789ABCDEF0123456789ABCDEF0123456789ABCDEF0123456789ABCDEF
def vb : Nat := 0xFEDCBA9876543210FEDCBA9876543210FEDCBA9876543210FEDCBA9876543210
def ones : Nat := 0xFFFFFFFFFFFFFFFFFFFFFFFFFFFFFFFFFFFFFFFFFFFFFFFFFFFFFFFFFFFFFFFF
def x2 : Nat := 0xC6047F9441ED7D6D3045406E95C07CD85C778E4B8CEF3CA7ABAC09B95C709EE5
def y2 : Nat := 0x1AE168FEA63DC339A3C58419466CEAEEF7F632653266D0E1236431A950CFE52A
def g2 : Point := .affine x2 y2
def g3 : Point := .affine 0xF9308A019258C31049344F85F89D5229B531C845836F99B08601F113BCE036F9
  0x388F7B0F632DE8140FE337E62A37F3566500A99934C2231B6CB9FD7584B8E672
def g5 : Point := .affine 0x2F8BDE4D1A07209355B4A7250A5C5128E88B84BDDC619AB7CBA8D569B240EFE4
  0xD8AC222636E5E3D6D4DBA9DDA6C9C426F788271BAB0D6840DCA87D3AA6AC62D6
def g7 : Point := .affine 0x5CBDF0646E5DB4EAA398F365F2EA7A0E3D419B7E0330E39CE92BDDEDCAC4F9BC
  0x6AEBCA40BA255960A3178D6D861A54DBA813D0B813FDE7B5A5082628087264DA
def negG : Point := .affine Config.gx 0xB7C52588D95C3B9AA25B0403F1EEF75702E84BB7597AABE663B82F6F04EF2777
/-- The point with `x = n` (file 95, section 2). -/
def ph : Point := .affine Config.n 0x98F66641CB0AE1776B463EBDEE3D77FE2658F021DB48E2C8AC7AB4C92F83621E
/-- A pair off the curve. -/
def off : PointReg := { inf := false, x := 1, y := 1 }
/-- An identity register with other coordinates. -/
def dirtyO : PointReg := { inf := true, x := 5, y := 6 }

/-! ## WellFormed: the one check, an ill-formed term it refuses, and a well-formed neighbour -/

theorem test_wf_refuses_parity_two : (Instr.decompress 1 1 2).wf = false := by decide
theorem test_wf_refuses_parity_high_bit : (Instr.decompress 1 1 0x81).wf = false := by decide
theorem test_wf_accepts_parity_one : (Instr.decompress 1 1 1).wf = true := by decide
theorem test_wf_accepts_every_recovery_id : (Instr.recover 0 0 1 2 255).wf = true := by decide

/-! ## Decode: a word of every command, written out from R61, R62, R66 -/

theorem test_decode_field : decode 0x10201000 = .ok (.addP 2 0 1) ∧ decode 0x11765000 = .ok (.addN 7 6 5) ∧
    decode 0x12210000 = .ok (.subP 2 1 0) ∧ decode 0x13201000 = .ok (.subN 2 0 1) ∧
    decode 0x14330000 = .ok (.mulP 3 3 0) ∧ decode 0x15504000 = .ok (.mulN 5 0 4) ∧
    decode 0x16100000 = .ok (.redP 1 0) ∧ decode 0x17100000 = .ok (.redN 1 0) := by decide
theorem test_decode_checks : decode 0x18001000 = .ok (.eqP 0 1) ∧ decode 0x19053000 = .ok (.eqN 5 3) ∧
    decode 0x1A050000 = .ok (.parP 5) ∧ decode 0x1B070000 = .ok (.parN 7) := by decide
theorem test_decode_exponent : decode 0x20536700 = .ok (.modexp 5 3 6 7) ∧ decode 0x22100000 = .ok (.invP 1 0) ∧
    decode 0x23400000 = .ok (.invN 4 0) := by decide
theorem test_decode_engine : decode 0x300012FF = .ok (.recover 0 0 1 2 255) ∧
    decode 0x31100000 = .ok (.ecmul 1 0 0) ∧ decode 0x32220000 = .ok (.mulg 2 2) ∧
    decode 0x33302000 = .ok (.ecadd 3 0 2) ∧ decode 0x34100000 = .ok (.tweak 1 0 0) := by decide
theorem test_decode_codec : decode 0x40110000 = .ok (.compress 1 1) ∧
    decode 0x41310001 = .ok (.decompress 3 1 1) ∧ decode 0x50100000 = .ok (.negs 1 0) ∧
    decode 0x51110000 = .ok (.negp 1 1) := by decide
theorem test_decode_rejects_opcode : decode 0x00000000 = .error .unassignedOpcode ∧
    decode 0xFFFFFFFF = .error .unassignedOpcode ∧ decode 0x21100000 = .error .unassignedOpcode ∧
    decode 0x1C201000 = .error .unassignedOpcode := by decide
theorem test_decode_rejects_register : decode 0x10801000 = .error .registerOutOfRange ∧
    decode 0x33412000 = .error .registerOutOfRange ∧ decode 0x31104000 = .error .registerOutOfRange ∧
    decode 0x40140000 = .error .registerOutOfRange ∧ decode 0x30401200 = .error .registerOutOfRange := by decide
theorem test_decode_rejects_unused : decode 0x10201001 = .error .unusedFieldNotZero ∧
    decode 0x10201100 = .error .unusedFieldNotZero ∧ decode 0x18101000 = .error .unusedFieldNotZero ∧
    decode 0x41130002 = .error .unusedFieldNotZero := by decide
theorem test_encode_words : encode (.recover 0 0 1 2 255) = 0x300012FF ∧ encode (.ecadd 3 0 2) = 0x33302000 ∧
    encode (.decompress 3 1 1) = 0x41310001 ∧ encode (.parN 7) = 0x1B070000 := by decide
theorem test_decode_bytes : decodeBytes [0x33, 0x30, 0x20, 0x00, 0xAA] = .ok (.ecadd 3 0 2, [0xAA]) ∧
    decodeBytes [0x33, 0x30, 0x20] = .error .truncatedWord := by decide
theorem test_decode_table_word : decodeTableWord 32 0x41310001 = some (.decompress 3 1 1) := by decide

/-! ## Field arithmetic -/

theorem test_addP_V3 : wordAfter (mk [(0, va), (1, vb)] []) 0x10201000 2 = some (0x1000003D0, 0) := by decide +kernel
theorem test_addP_V6 : wordAfter (mk [(0, ones), (1, ones)] []) 0x10201000 2 = some (0x2000007A0, 0) := by
  decide +kernel
theorem test_addN_V4 : wordAfter (mk [(0, va), (1, vb)] []) 0x11201000 2 =
    some (0x14551231950B75FC4402DA1732FC9BEBE, 0) := by decide +kernel
theorem test_subP_V7 : wordAfter (mk [(0, va), (1, vb)] []) 0x12201000 2 =
    some (0x02468ACF13579BDE02468ACF13579BDE02468ACF13579BDE02468ACE1357980E, 0) := by decide +kernel
theorem test_subP_V12 : wordAfter (mk [(3, va)] []) 0x12333000 3 = some (0, 0) := by decide +kernel
theorem test_subN_V9 : wordAfter (mk [(0, va), (1, vb)] []) 0x13201000 2 =
    some (0x02468ACF13579BDE02468ACF13579BDCBCF567B5C2A03C19C218E95BE38DDD20, 0) := by decide +kernel
theorem test_mulP_V13 : wordAfter (mk [(0, va), (1, vb)] []) 0x14201000 2 =
    some (0x8C644419C8C50984E1E06F7BC8EBDB3C375C9ADDC912ACF38DFAC0488D5F655D, 0) := by decide +kernel
theorem test_mulN_V14 : wordAfter (mk [(0, va), (1, vb)] []) 0x15201000 2 =
    some (0xA5393281D581EAC38AA0B5B7A460398562C086099EE7FE5700C013D19C7B1D99, 0) := by decide +kernel
theorem test_redP_V19 : wordAfter (mk [(0, Config.p)] []) 0x16100000 1 = some (0, 0) := by decide +kernel
theorem test_redN_V21 : wordAfter (mk [(0, Config.p)] []) 0x17100000 1 =
    some (0x14551231950B75FC4402DA1722FC9BAEE, 0) := by decide +kernel
theorem test_eqP_V24 : wordAfter (mk [(1, Config.p)] []) 0x18001000 0 = some (0, 0x10) := by decide +kernel
theorem test_eqP_V25 : wordAfter ((mk [(0, 1), (1, 2)] []).setT true) 0x18001000 0 = some (1, 0) := by decide +kernel
theorem test_eqN_V26 : wordAfter (mk [(0, 5), (1, Config.n + 5)] []) 0x19001000 0 = some (5, 0x10) := by
  decide +kernel
theorem test_eqN_V27 : wordAfter (mk [(1, Config.p)] []) 0x19001000 0 = some (0, 0) := by decide +kernel
theorem test_parP_V29 : wordAfter (mk [(0, Config.p)] []) 0x1A000000 0 = some (Config.p, 0) := by decide +kernel
theorem test_parP_V30 : wordAfter (mk [(0, Config.p + 1)] []) 0x1A000000 0 = some (Config.p + 1, 0x10) := by
  decide +kernel
theorem test_parN_V31 : wordAfter (mk [(0, Config.n + 1)] []) 0x1B000000 0 = some (Config.n + 1, 0x10) := by
  decide +kernel

/-! ## Exponentiation and inverse -/

theorem test_modexp_V37 : reportsOnly (mk [(0, 5), (1, 3), (3, va)] []) 0x20301200 7 = true := by decide +kernel
theorem test_modexp_V40 : wordAfter (mk [(0, ones), (1, 2), (2, Config.p)] []) 0x20001200 0 =
    some (0x1000007A0000E8900, 0) := by decide +kernel
theorem test_invP_V42 : wordAfter (mk [(0, va)] []) 0x22100000 1 =
    some (0xF37164D6FF61ED527289824F2AAC8343CA55B3C9EEABE44CD6379ACBC0BA895D, 0) := by decide +kernel
theorem test_invP_V46 : reportsOnly (mk [(0, Config.p), (1, va)] []) 0x22100000 3 = true := by decide +kernel
theorem test_invN_V50 : wordAfter (mk [(0, Config.p)] []) 0x23100000 1 =
    some (0xA57BDC004D93728C4BC18A61F6631708569FA14FE13EDB7F8F3107A7A3E12BE1, 0) := by decide +kernel
theorem test_invN_V51 : reportsOnly (mk [(0, Config.n), (1, va)] []) 0x23100000 3 = true := by decide +kernel

/-! ## The recovery engine. The completing tuples go through the group, not through evaluation. -/

theorem test_doubling_is_V1 : ecAdd gen gen = g2 := by decide +kernel
theorem test_chord_G3 : ecAdd gen g2 = g3 := by decide +kernel
theorem test_chord_G5 : ecAdd g2 g3 = g5 := by decide +kernel
theorem test_chord_G7 : ecAdd g2 g5 = g7 := by decide +kernel

theorem onE_g2 : g2.onE := test_doubling_is_V1 ▸ (haveI := fact_p; onE_ecAdd onE_gen onE_gen)
theorem onE_g3 : g3.onE := test_chord_G3 ▸ (haveI := fact_p; onE_ecAdd onE_gen onE_g2)
theorem onE_g5 : g5.onE := test_chord_G5 ▸ (haveI := fact_p; onE_ecAdd onE_g2 onE_g3)
theorem onE_g7 : g7.onE := test_chord_G7 ▸ (haveI := fact_p; onE_ecAdd onE_g2 onE_g5)

section
variable [Fact (Nat.Prime Config.p)]

theorem toE_g2 : g2.toE = 2 • gen.toE := by
  rw [← test_doubling_is_V1, toE_ecAdd onE_gen onE_gen, two_nsmul]
theorem toE_g3 : g3.toE = 3 • gen.toE := by
  rw [← test_chord_G3, toE_ecAdd onE_gen onE_g2, toE_g2, ← succ_nsmul']
theorem toE_g5 : g5.toE = 5 • gen.toE := by
  rw [← test_chord_G5, toE_ecAdd onE_g2 onE_g3, toE_g2, toE_g3, ← add_nsmul]
theorem toE_g7 : g7.toE = 7 • gen.toE := by
  rw [← test_chord_G7, toE_ecAdd onE_g2 onE_g5, toE_g2, toE_g5, ← add_nsmul]

end

theorem recover_double : recover 0 Config.gx (2 * Config.gx % Config.n) 0 = some g2 := by
  have := fact_p
  obtain ⟨Q, hQ, hon, hE⟩ := recover_mul (x := Config.gx) (y := Config.gy) (k := 2) onE_gen (by decide) (by decide)
  have h : Q = g2 := toE_inj hon onE_g2 (by rw [hE, toE_g2]; rfl)
  rw [← h]
  exact hQ
theorem recover_triple : recover 0 Config.gx (3 * Config.gx % Config.n) 0 = some g3 := by
  have := fact_p
  obtain ⟨Q, hQ, hon, hE⟩ := recover_mul (x := Config.gx) (y := Config.gy) (k := 3) onE_gen (by decide) (by decide)
  have h : Q = g3 := toE_inj hon onE_g3 (by rw [hE, toE_g3]; rfl)
  rw [← h]
  exact hQ

/-- `W0 = 0`, `W1 = GX`, `W2 = 2*GX mod n`. -/
def s52 : State := mk [(1, Config.gx), (2, 0xF37CCCFDF3B97758AB40C52B9D0E160E0537F9B65B9C51B2B3E502B62DF02F30)] []
theorem test_recover_V52 : exec (.recover 0 0 1 2 0) s52 = completePoint 0 g2 s52 := by
  have h0 : s52.int 0 = 0 := by decide +kernel
  have h1 : s52.int 1 = Config.gx := by decide +kernel
  have h2 : s52.int 2 = 2 * Config.gx % Config.n := by decide +kernel
  rw [exec, execRecover, h0, h1, h2, show (0 : BitVec 8).toNat = 0 from rfl, recover_double]
  rfl
theorem test_recover_V59 : reportsOnly (mk [(1, Config.gx), (2, 1)] [(0, gen.toReg)]) 0x30001202 5 = true := by
  decide +kernel
/-- `W0 = 2`, `PT0 = G`. -/
def s66 : State := mk [(0, 2)] [(0, gen.toReg)]
theorem test_ecmul_V66 : exec (.ecmul 1 0 0) s66 = completePoint 1 g2 s66 := by
  have h0 : s66.scalar 0 = 2 := by decide +kernel
  have h1 : (s66.readPt 0).affineCoords = some (Config.gx, Config.gy) := by decide +kernel
  rw [exec, execEcmul, h1]
  simp only [h0, show Config.gy % 2 = 0 from rfl, recover_double]
  rfl
theorem test_ecmul_V106 : reportsOnly (mk [(0, 2)] [(0, ph.toReg), (1, g5.toReg)]) 0x31100000 5 = true := by
  decide +kernel
/-- `W0 = 3`. -/
def s78 : State := mk [(0, 3)] []
theorem test_mulg_V78 : exec (.mulg 0 0) s78 = completePoint 0 g3 s78 := by
  have h0 : s78.scalar 0 = 3 := by decide +kernel
  rw [exec, execMulg]
  simp only [h0, show Config.gy % 2 = 0 from rfl, recover_triple]
  rfl
theorem test_mulg_V82 : pointAfter (mk [(0, Config.n)] [(0, gen.toReg)]) 0x32000000 0 =
    some (PointReg.zeroed, 0) := by decide +kernel
theorem test_ecadd_V84 : pointAfter (mk [] [(0, gen.toReg), (1, g2.toReg)]) 0x33201000 2 = some (g3.toReg, 0) := by
  decide +kernel
theorem test_ecadd_V87 : reportsOnly (mk [] [(0, gen.toReg), (1, gen.toReg), (2, g5.toReg)]) 0x33201000 4 = true := by
  decide +kernel
/-- `W0 = 5`, `PT0 = G2`. -/
def s98 : State := mk [(0, 5)] [(0, g2.toReg)]
theorem test_tweak_V98 : exec (.tweak 1 0 0) s98 = completePoint 1 g7 s98 := by
  have := fact_p
  obtain ⟨Q, hQ, hon, hE⟩ := recover_tweak (x := x2) (y := y2) (t := 5) onE_g2 (by decide)
  have h : Q = g7 := toE_inj hon onE_g7 (by
    rw [hE, toE_g7, show Point.toE (.affine x2 y2) = g2.toE from rfl, toE_g2, ← add_nsmul])
  have h0 : s98.scalar 0 = 5 := by decide +kernel
  have h1 : (s98.readPt 0).affineCoords = some (x2, y2) := by decide +kernel
  rw [exec, execTweak, h1]
  simp only [h0, hQ, h]
  rfl
theorem test_tweak_V109 : reportsOnly (mk [] [(0, ph.toReg), (1, g5.toReg)]) 0x34100000 5 = true := by decide +kernel

/-! ## Codec and negation -/

theorem test_compress_V116 : wordAfter (mk [] [(0, { g2.toReg with y :=
      0xE51E970159C23CC65C3A7BE6B99315110809CD9ACD992F1EDC9BCE55AF301705 })]) 0x40100000 1 = some (x2, 0x10) := by
  decide +kernel
theorem test_compress_V117 : reportsOnly ((mk [(1, va)] []).setT true) 0x40100000 1 = true := by decide +kernel
theorem test_decompress_V119 : pointAfter (mk [(1, x2)] []) 0x41110000 1 = some (g2.toReg, 0) := by decide +kernel
theorem test_decompress_V127 : reportsOnly (mk [(1, Config.p + 1)] [(1, gen.toReg)]) 0x41110000 2 = true := by
  decide +kernel
theorem test_negs_V131 : wordAfter (mk [(0, Config.n), (1, va)] []) 0x50100000 1 = some (0, 0) := by decide +kernel
theorem test_negs_V133 : wordAfter (mk [(0, va)] []) 0x50100000 1 =
    some (0xFEDCBA9876543210FEDCBA987654320FB98B977F259CD24CBEAF1925468A7352, 0) := by decide +kernel
theorem test_negp_V135 : pointAfter (mk [] [(0, gen.toReg)]) 0x51100000 1 = some (negG.toReg, 0) := by decide +kernel
/-- A pair whose `x` and `y` are not canonical. -/
def wild : PointReg := { inf := false, x := BitVec.ofNat 256 ones, y := BitVec.ofNat 256 Config.p }
theorem test_negp_V139 : pointAfter (mk [] [(0, wild)]) 0x51100000 1 = some ({ wild with y := 0 }, 0) := by
  decide +kernel

/-! ## The window and the reset input -/

theorem test_illegal_V150 : reportsOnly (mk [(0, va), (2, 5)] [(0, gen.toReg)]) 0x41130002 6 = true := by
  decide +kernel
theorem test_window_V155 : (nextOf (step { State.reset with host := [.write 0x11C 0x16F81798] })).map
    (fun t => t.readW 0) = some 0x16F81798 := by decide +kernel
theorem test_window_V157 : (nextOf (step { State.reset with host := [.write 0x1E0 0xDEADBEEF] })).map
    (fun t => (t.readW 7).toNat / 2 ^ 224) = some 0xDEADBEEF := by decide +kernel
theorem test_window_V158 : nextOf (step { State.reset with host := [.write 0x004 0xFFFFFFFF] }) = some State.reset := by
  decide +kernel
theorem test_window_V161 : (nextOf (step { State.reset with host := [.write 0x240 0xFFFFFFFE] })).map
    (fun t => t.readPt 0) = some { inf := false, x := 0, y := 0 } := by decide +kernel
theorem test_window_V163 : (nextOf (step { State.reset with host := [.write 0x3BC 0xCAFEF00D] })).map
    (fun t => t.readPt 3) = some { inf := true, x := 0, y := 0xCAFEF00D } := by decide +kernel
theorem test_window_read_V153 : (nextOf (step { State.reset with host := [.read 0x2C0] })).map
    (fun t => t.received) = some [1] := by decide +kernel
theorem test_window_hole : step { State.reset with host := [.read 0x400] } = .refused .outsideWindow := rfl
theorem test_reset_input : nextOf (step { mk [(0, 5)] [(0, gen.toReg)] with host := [.reset] }) =
    some State.reset := by decide +kernel

/-! ## Witnesses: for each statement with hypotheses, states and operands that meet them, clause by clause -/

theorem next_of {o : Host.Outcome State Fault Refusal} {P : State → Bool} (h : (nextOf o).any P = true) :
    ∃ t, o = .next t ∧ P t = true := by
  cases o with
  | next t => exact ⟨t, rfl, h⟩
  | fault r => cases r
  | refused r => simp [nextOf] at h

theorem runs (i : Instr) (s : State) : ∃ t, exec i s = .next t := (exists_command_effect i s).imp fun _ h => h.1

/-- `G` in `PT0`, `PH` in `PT1`, a pair off the curve in `PT2`, an identity register in `PT3`; `0 1 2 p n` and more
in the word registers. -/
def sW : State := mk [(1, 1), (2, 2), (3, Config.n), (4, Config.p), (5, x2), (6, 5), (7, ones)]
  [(0, gen.toReg), (1, ph.toReg), (2, off), (3, dirtyO)]

theorem test_witness_roundTrip : (Instr.decompress 3 7 1).wf = true ∧ (Instr.recover 3 7 7 7 255).wf = true := by decide
theorem test_witness_decoded : (decode 0x41310001).toOption = some (.decompress 3 1 1) := by decide
theorem test_witness_rows : ∃ q ∈ opcodeTable, ∃ r ∈ opcodeTable,
    0x10201000 &&& q.mask = q.pattern ∧ (0x10201000 : CmdWord) &&& r.mask = r.pattern :=
  ⟨⟨"ADD.P", 0xFF888FFF, 0x10000000⟩, by decide, ⟨"ADD.P", 0xFF888FFF, 0x10000000⟩, by decide, by decide, by decide⟩
theorem test_witness_illegal : (∀ r ∈ opcodeTable, (0x41130002 : CmdWord) &&& r.mask ≠ r.pattern) ∧
    ∀ r ∈ opcodeTable, (0x10801000 : CmdWord) &&& r.mask ≠ r.pattern := by decide
theorem test_witness_idle : ∃ s : State, s.host = [] ∧ s.err = 7 := ⟨State.reset.setErr 7, rfl, rfl⟩
/-- Each clause of the map at the ends of its range; the values of one clause fall under no other. -/
theorem test_witness_map : place 0x000 = .cmd ∧ place 0x004 = .status ∧ place 0x008 = .reserved ∧
    place 0x0FC = .reserved ∧ place 0x100 = .word 0 0 ∧ place 0x1FC = .word 7 7 ∧ place 0x200 = .ptX 0 0 ∧
    place 0x39C = .ptX 3 7 ∧ place 0x220 = .ptY 0 0 ∧ place 0x3BC = .ptY 3 7 ∧ place 0x240 = .ptInf 0 ∧
    place 0x3C0 = .ptInf 3 ∧ place 0x244 = .reserved ∧ place 0x3FC = .reserved := by decide
theorem test_witness_undecodable : decode 0x10801000 = .error .registerOutOfRange := by decide
theorem test_witness_windowWrite : ∃ t, admitted 0x100 = true ∧ admitted 0x3FC = true ∧
    step { sW with host := [.write 0x100 5] } = .next t := ⟨_, by decide, by decide, rfl⟩
theorem test_witness_unadmitted : (0x400 : Nat) ≤ 0x400 ∧ (0x3FD : Nat) < 0x400 ∧ 0x3FD % 4 ≠ 0 := by decide
theorem test_witness_admitted : (HostAction.read 0x3FC).isAdmitted = true ∧
    (HostAction.write 0x000 0).isAdmitted = true ∧ HostAction.reset.isAdmitted = true := by decide
theorem test_witness_onlyCmd : ∃ s t : State, (∀ v rest, s.host ≠ .write 0x000 v :: rest) ∧
    (∀ rest, s.host ≠ .reset :: rest) ∧ step s = .next t :=
  ⟨{ sW with host := [.write 0x004 7] }, _, by simp, by simp, rfl⟩
theorem test_witness_errLegal : ∃ s t : State, s.errLegal ∧ step s = .next t :=
  ⟨{ sW.setErr 7 with host := [.write 0x000 0x16100000] }, _, by show (7 : BitVec 4).toNat ≤ 7; decide, rfl⟩
theorem test_witness_pointsValid : ∃ s t : State, s.pointsValid ∧
    (∀ o d rest, s.host = .write o d :: rest → o < 0x200) ∧ step s = .next t := by
  obtain ⟨t, ht, -⟩ := next_of (o := step ((mk [] [(0, gen.toReg)]).withFetchWord 32 0x51100000))
    (P := fun _ => true) (by decide +kernel)
  refine ⟨_, t, ?_, ?_, ht⟩
  · unfold State.pointsValid
    decide +kernel
  · intro o d rest h
    injection h with h _
    injection h with h _
    rw [← h]
    decide
theorem test_witness_pointResult : ∃ (i : Instr) (s t : State) (pd : PIdx), i.pointDest = some pd ∧
    exec i s = .next t ∧ t.err = 0 ∧ ∀ pa, i = .negp pd pa → (s.readPt pa).valid = true := by
  refine ⟨.negp 1 0, sW, _, 1, rfl, rfl, rfl, ?_⟩
  intro pa h
  injection h with _ h
  rw [← h]
  decide +kernel
theorem test_witness_failing : ∃ t, exec (.compress 1 2) sW = .next t ∧ t.err ≠ 0 := by
  obtain ⟨t, h, he⟩ := next_of (o := exec (.compress 1 2) sW) (P := fun t => t.err != 0) (by decide +kernel)
  exact ⟨t, h, by simpa using he⟩
theorem test_witness_frame : ∃ t, exec (.ecadd 3 0 1) sW = .next t := runs _ _
/-- Two different states that agree on the sources of a command. -/
theorem test_witness_sources : ∃ s1 s2 t1 t2 : State, s1 ≠ s2 ∧
    (∀ k ∈ (Instr.ecmul 1 1 0).wordSources, s1.readW k = s2.readW k) ∧
    (∀ j ∈ (Instr.ecmul 1 1 0).pointSources, (s1.readPt j).toPoint = (s2.readPt j).toPoint) ∧
    exec (.ecmul 1 1 0) s1 = .next t1 ∧ exec (.ecmul 1 1 0) s2 = .next t2 := by
  obtain ⟨t1, h1⟩ := runs (.ecmul 1 1 0) sW
  obtain ⟨t2, h2⟩ := runs (.ecmul 1 1 0) (sW.writeW 2 7)
  exact ⟨sW, sW.writeW 2 7, t1, t2, by decide +kernel, by decide +kernel, by decide +kernel, h1, h2⟩
/-- One command for each code of R150 that a decoded command reports. -/
theorem test_witness_codes : (nextOf (exec (.ecadd 0 2 2) sW)).map (·.err) = some 1 ∧
    (nextOf (exec (.decompress 0 0 0) sW)).map (·.err) = some 2 ∧
    (nextOf (exec (.invP 0 4) sW)).map (·.err) = some 3 ∧
    (nextOf (exec (.ecadd 2 0 0) sW)).map (·.err) = some 4 ∧
    (nextOf (exec (.tweak 0 1 1) sW)).map (·.err) = some 5 ∧
    (nextOf (exec (.modexp 0 1 1 0) sW)).map (·.err) = some 7 := by decide +kernel
/-- The clauses of the order of checks, and those of `ECMUL`, `ECADD`, `TWEAK`, `COMPRESS`, `NEGP` on point operands:
`PT3` identity, `PT0` and `PT1` valid with `x < n` and `x = n`, `PT2` invalid; scalars `0`, `n` and `1`. -/
theorem test_witness_points : (sW.readPt 3).inf = true ∧ (sW.readPt 2).valid = false ∧
    (sW.readPt 0).inf = false ∧ (sW.readPt 0).valid = true ∧ (sW.readPt 0).x.toNat < Config.n ∧
    (sW.readPt 1).inf = false ∧ (sW.readPt 1).valid = true ∧ (sW.readPt 1).x.toNat = Config.n ∧
    (sW.readW 0).toNat % Config.n = 0 ∧ (sW.readW 3).toNat % Config.n = 0 ∧ (sW.readW 1).toNat % Config.n ≠ 0 ∧
    (sW.readPt 0).toPoint ≠ (sW.readPt 1).toPoint := by decide +kernel
theorem test_witness_fieldLaws : (sW.readW 0).toNat = 0 ∧ (sW.readW 1).toNat = 1 ∧
    (∃ t, exec (.redP 0 7) sW = .next t) ∧ (∃ t, exec (.redN 0 7) sW = .next t) ∧
    ∃ t u, exec (.negs 0 7) sW = .next t ∧ (2 : WIdx) ≠ 0 ∧ exec (.addN 0 2 0) t = .next u :=
  ⟨by decide +kernel, by decide +kernel, runs _ _, runs _ _, _, _, rfl, by decide, rfl⟩
theorem test_witness_modexp : (sW.readW 0).toNat = 0 ∧ (sW.readW 1).toNat ≠ 0 := by decide +kernel
theorem test_witness_inverse : (sW.readW 4).toNat % Config.p = 0 ∧ (sW.readW 3).toNat % Config.p ≠ 0 ∧
    (sW.readW 3).toNat % Config.n = 0 ∧ (sW.readW 4).toNat % Config.n ≠ 0 := by decide +kernel
theorem test_witness_group : Point.O.onE ∧ gen.onE ∧ g2.onE ∧ negG.onE ∧ ecNeg gen = negG :=
  ⟨trivial, onE_gen, onE_g2, (by decide +kernel : onCurve _ _ = true), by decide +kernel⟩
theorem test_witness_multiples : (ones < 2 ^ 256) ∧ ones % Config.n ≠ 0 ∧ Config.n % Config.n = 0 := by decide +kernel

/-- `7` and `132` are no squares: the non-residue clauses of `lift_x`, `RECOVER` and `DECOMPRESS`. -/
theorem not_square {x : Nat} (hx : x < Config.p) (h : liftX x 0 = none) : ¬ IsSquareModP (x * x * x + 7) := by
  have := fact_p
  rintro ⟨y, hy, e⟩
  have hn := (liftX_eq_none_iff x two_pos).1 h y
  simp [onCurve, hx, hy, e, Config.curveB] at hn
theorem test_witness_nonresidue : ¬ IsSquareModP (0 * 0 * 0 + 7) ∧ ¬ IsSquareModP (5 * 5 * 5 + 7) :=
  ⟨not_square (by decide) (by decide +kernel), not_square (by decide) (by decide +kernel)⟩
theorem test_witness_liftX : liftX Config.gx 0 = some gen ∧ liftX Config.p 0 = none ∧
    liftX (Config.p - 1) 1 = none ∧ liftX Config.n 0 = some ph := by decide +kernel
/-- The failing clauses of `RECOVER` at the ends of their ranges. -/
theorem test_witness_recover_fails : 2 ≤ (2 : BitVec 8).toNat ∧ (sW.readW 0).toNat = 0 ∧
    Config.n ≤ (sW.readW 3).toNat ∧ (sW.readW 6).toNat = 5 := by decide +kernel
/-- A tuple for each recovery id on which `RECOVER` completes. -/
theorem test_witness_recover : ∃ y0 y1, (sW.readW 5).toNat ≠ 0 ∧ (sW.readW 5).toNat < Config.n ∧
    (sW.readW 2).toNat ≠ 0 ∧ (sW.readW 2).toNat < Config.n ∧ onCurve (sW.readW 5).toNat y0 = true ∧
    y0 % 2 = (0 : BitVec 8).toNat ∧ onCurve (sW.readW 5).toNat y1 = true ∧ y1 % 2 = (1 : BitVec 8).toNat :=
  ⟨y2, 0xE51E970159C23CC65C3A7BE6B99315110809CD9ACD992F1EDC9BCE55AF301705, by decide +kernel⟩
theorem test_witness_decompress : (1 : BitVec 8).toNat < 2 ∧ Config.p ≤ (sW.readW 4).toNat ∧
    (sW.readW 5).toNat < Config.p ∧ IsSquareModP ((sW.readW 5).toNat * (sW.readW 5).toNat * (sW.readW 5).toNat + 7) :=
  ⟨by decide, by decide +kernel, by decide +kernel, y2, by decide +kernel, by decide +kernel⟩
theorem test_witness_mulg : sW.readPt 0 = gen.toReg := by decide +kernel
theorem test_witness_codec : (∃ s1 s2, (sW.readPt 0).inf = false ∧ (sW.readPt 0).valid = true ∧
      exec (.compress 0 0) sW = .next s1 ∧ (0 : BitVec 8).getLsbD 0 = s1.t ∧ exec (.decompress 1 0 0) s1 = .next s2) ∧
    ∃ s1 s2, exec (.decompress 1 5 1) sW = .next s1 ∧ s1.err = 0 ∧ exec (.compress 0 1) s1 = .next s2 := by
  constructor
  · obtain ⟨s1, h1, ht⟩ := next_of (o := exec (.compress 0 0) sW) (P := fun t => t.t == false) (by decide +kernel)
    obtain ⟨s2, h2⟩ := runs (.decompress 1 0 0) s1
    refine ⟨s1, s2, by decide +kernel, by decide +kernel, h1, ?_, h2⟩
    rw [beq_iff_eq.1 ht]
    rfl
  · obtain ⟨s1, h1, he⟩ := next_of (o := exec (.decompress 1 5 1) sW) (P := fun t => t.err == 0) (by decide +kernel)
    obtain ⟨s2, h2⟩ := runs (.compress 0 1) s1
    exact ⟨s1, s2, h1, beq_iff_eq.1 he, h2⟩

/-- What `ECMUL` by a scalar `k` of `1 .. n - 1` leaves when `PT0` holds `G`. -/
theorem ecmul_gen {s : State} {w : WIdx} {j : PIdx} {Q : Point} (hG : s.readPt 0 = gen.toReg)
    (hk : s.scalar w % Config.n ≠ 0) (hQ : Q.onE)
    (hE : haveI := fact_p; Q.toE = s.scalar w • gen.toE) :
    exec (.ecmul j w 0) s = completePoint j Q s := by
  have := fact_p
  have h1 : (s.readPt 0).affineCoords = some (Config.gx, Config.gy) := by rw [hG]; decide +kernel
  obtain ⟨P, hP, hon, hPE⟩ := recover_mul (x := Config.gx) (y := Config.gy) onE_gen (by decide) hk
  have h : P = Q := toE_inj hon hQ (hPE.trans hE.symm)
  rw [exec, execEcmul, h1]
  simp only [hP, h]
  rw [if_neg (fun h0 => hk (by rw [h0]; rfl))]
  rfl

/-- The three clauses on composed scalars: `b` congruent to 0; `a` congruent to 0; and `x < n` with `2 * 3 = 6`. -/
theorem test_witness_compose : ∃ s s1 s2 s3 : State, s.readPt 0 = gen.toReg ∧ exec (.ecmul 1 1 0) s = .next s1 ∧
    exec (.ecmul 2 0 1) s1 = .next s2 ∧ (s.readW 2).toNat = (s.readW 0).toNat * (s.readW 1).toNat % Config.n ∧
    exec (.ecmul 3 2 0) s = .next s3 ∧ (s.readW 1).toNat % Config.n ≠ 0 ∧
    (s1.readPt 1).x.toNat < Config.n := by
  have := fact_p
  let s : State := mk [(0, 3), (1, 2), (2, 6)] [(0, gen.toReg)]
  have hs : s.scalar 1 = 2 := by decide +kernel
  have h1 : exec (.ecmul 1 1 0) s = completePoint 1 g2 s :=
    ecmul_gen (by decide +kernel) (by rw [hs]; decide) onE_g2 (by rw [toE_g2, hs])
  obtain ⟨s2, h2⟩ := runs (.ecmul 2 0 1) ((s.writePt 1 g2.toReg).setErr 0)
  obtain ⟨s3, h3⟩ := runs (.ecmul 3 2 0) s
  exact ⟨s, _, s2, s3, by decide +kernel, h1, h2, by decide +kernel, h3, by decide +kernel,
    by rw [State.setErr_readPt, State.readPt_writePt_self]; decide +kernel⟩
theorem test_witness_compose_zero : ∀ a b : Nat, (a, b) = (5, Config.n) ∨ (a, b) = (Config.n, 5) →
    ∃ s s1 s2 s3 : State, s.readPt 0 = gen.toReg ∧ exec (.ecmul 1 1 0) s = .next s1 ∧
    exec (.ecmul 2 0 1) s1 = .next s2 ∧ (s.readW 2).toNat = (s.readW 0).toNat * (s.readW 1).toNat % Config.n ∧
    exec (.ecmul 3 2 0) s = .next s3 ∧ (s.readW 0).toNat = a ∧ (s.readW 1).toNat = b := by
  intro a b h
  let s : State := mk [(0, a), (1, b)] [(0, gen.toReg)]
  obtain ⟨s1, h1⟩ := runs (.ecmul 1 1 0) s
  obtain ⟨s2, h2⟩ := runs (.ecmul 2 0 1) s1
  obtain ⟨s3, h3⟩ := runs (.ecmul 3 2 0) s
  rcases h with h | h <;> cases h <;>
    exact ⟨s, s1, s2, s3, by decide +kernel, h1, h2, by decide +kernel, h3, by decide +kernel, by decide +kernel⟩
/-- The clause with an inner `x` not below `n`: some multiple of `G` is `PH`, since `G` generates the group. -/
theorem test_witness_compose_high : ∃ s s1 s2 s3 : State, s.readPt 0 = gen.toReg ∧
    exec (.ecmul 1 1 0) s = .next s1 ∧ exec (.ecmul 2 0 1) s1 = .next s2 ∧
    (s.readW 2).toNat = (s.readW 0).toNat * (s.readW 1).toNat % Config.n ∧ exec (.ecmul 3 2 0) s = .next s3 ∧
    (s.readW 1).toNat % Config.n ≠ 0 ∧ (s.readW 0).toNat % Config.n ≠ 0 ∧
    Config.n ≤ (s1.readPt 1).x.toNat := by
  have := fact_p
  have : Fact (Nat.Prime Config.n) := ⟨n_prime⟩
  have hph : ph.onE := (by decide +kernel : onCurve _ _ = true)
  have hg0 : gen.toE ≠ 0 := fun h => by
    have := toE_inj onE_gen (show Point.O.onE from trivial) (h.trans toE_O.symm)
    cases this
  obtain ⟨k, hk⟩ := mem_multiples_of_prime_card card_curve (g' := ph.toE) hg0
  obtain ⟨b, hb, hbn⟩ : ∃ b, ph.toE = b • gen.toE ∧ b < Config.n :=
    ⟨k % Config.n, by rw [mod_n_nsmul]; exact hk.symm, Nat.mod_lt _ n_pos⟩
  have hbmod : b % Config.n = b := Nat.mod_eq_of_lt hbn
  have hb0 : b % Config.n ≠ 0 := by
    rw [hbmod]
    rintro rfl
    rw [zero_nsmul, ← toE_O] at hb
    cases toE_inj hph (show Point.O.onE from trivial) hb
  have hbw := toNat_ofNat_word (hbn.trans n_lt_word)
  let s : State := ((((State.reset).writePt 0 gen.toReg).writeW 0 1).writeW 1 (BitVec.ofNat 256 b)).writeW 2
    (BitVec.ofNat 256 b)
  have r0 : s.readW 0 = 1 := by
    rw [State.readW_writeW_ne _ _ (by decide), State.readW_writeW_ne _ _ (by decide), State.readW_writeW_self]
  have r1 : (s.readW 1).toNat = b := by
    rw [State.readW_writeW_ne _ _ (by decide), State.readW_writeW_self, hbw]
  have r2 : (s.readW 2).toNat = b := by rw [State.readW_writeW_self, hbw]
  have hG : s.readPt 0 = gen.toReg := by
    simp only [s, State.writeW_readPt, State.readPt_writePt_self]
  have hs : s.scalar 1 = b := by rw [State.scalar, State.int, r1, hbmod]
  have h1 : exec (.ecmul 1 1 0) s = completePoint 1 ph s := ecmul_gen hG (by rw [hs]; exact hb0) hph (by rw [hs, hb])
  obtain ⟨s2, h2⟩ := runs (.ecmul 2 0 1) ((s.writePt 1 ph.toReg).setErr 0)
  obtain ⟨s3, h3⟩ := runs (.ecmul 3 2 0) s
  refine ⟨s, _, s2, s3, hG, h1, h2, ?_, h3, by rw [r1]; exact hb0, by rw [r0]; decide, ?_⟩
  · rw [r0, r1, r2, show (1 : Word).toNat = 1 from rfl, one_mul, hbmod]
  · rw [State.setErr_readPt, State.readPt_writePt_self]
    decide +kernel
/-- The clauses of the tweak identity: the identity, `x = n` (with the sum of the other path), and `t G` different from
`P`. -/
theorem test_witness_tweak : ∀ pa : PIdx, pa = 3 ∨ pa = 1 ∨ pa = 0 → ∃ s1 s2 u : State, (2 : PIdx) ≠ pa ∧
    (sW.readPt pa).valid = true ∧ exec (.mulg 2 0) sW = .next s1 ∧ exec (.ecadd 3 pa 2) s1 = .next s2 ∧
    exec (.tweak 1 pa 0) sW = .next u ∧ s1.readPt 2 ≠ sW.readPt pa := by
  intro pa h
  obtain ⟨s1, h1, hP⟩ := next_of (o := exec (.mulg 2 0) sW)
    (P := fun t => t.readPt 2 != sW.readPt 0 && t.readPt 2 != sW.readPt 1 && t.readPt 2 != sW.readPt 3)
    (by decide +kernel)
  obtain ⟨s2, h2⟩ := runs (.ecadd 3 pa 2) s1
  obtain ⟨u, h3⟩ := runs (.tweak 1 pa 0) sW
  simp only [Bool.and_eq_true, bne_iff_ne] at hP
  refine ⟨s1, s2, u, ?_, ?_, h1, h2, h3, ?_⟩
  · rcases h with rfl | rfl | rfl <;> decide
  · rcases h with rfl | rfl | rfl <;> decide +kernel
  · rcases h with rfl | rfl | rfl
    · exact hP.2
    · exact hP.1.2
    · exact hP.1.1
/-- The clause `t G = P`: `MULG` by 1 beside `PT0 = G`. -/
theorem test_witness_tweak_equal : ∃ s1 s2 u : State, exec (.mulg 2 1) sW = .next s1 ∧
    exec (.ecadd 3 0 2) s1 = .next s2 ∧ exec (.tweak 1 0 1) sW = .next u ∧ s1.readPt 2 = sW.readPt 0 := by
  have := fact_p
  obtain ⟨Q, hQ, hon, hE⟩ := recover_mul (x := Config.gx) (y := Config.gy) (k := 1) onE_gen (by decide) (by decide)
  have h : Q = gen := toE_inj hon onE_gen (by rw [hE, one_nsmul]; rfl)
  have h0 : sW.scalar 1 = 1 := by decide +kernel
  have h1 : exec (.mulg 2 1) sW = completePoint 2 gen sW := by
    rw [exec, execMulg]
    simp only [h0, hQ, h]
    rfl
  obtain ⟨s2, h2⟩ := runs (.ecadd 3 0 2) ((sW.writePt 2 gen.toReg).setErr 0)
  obtain ⟨u, h3⟩ := runs (.tweak 1 0 1) sW
  exact ⟨_, s2, u, h1, h2, h3, by rw [State.setErr_readPt, State.readPt_writePt_self]; decide +kernel⟩

end Sys2Proof.Machine.Tests
end

section
/-! SUPPORT. One step of the block, said once: what an action of the host can do (R45 to R50, R69, R170). Proofs
about all steps take the cases of `ActionEffect` and do not open the host's port. -/

namespace Sys2Proof.Machine

open Sys2Proof

/-- `CMD` stands at one offset only (R46). -/
theorem place_eq_cmd_iff (off : Nat) : place off = .cmd ↔ off = 0x000 := by
  unfold place
  dsimp only
  split_ifs <;> simp [*]

/-- Everything an action of the host may leave of the state `s`, when the block does not refuse it. -/
inductive ActionEffect (s : State) : HostAction → State → Prop
  /-- the host read an admitted word (R47) -/
  | read (off : Nat) (ha : admitted off = true) :
      ActionEffect s (.read off) { s with received := s.readPlace (place off) :: s.received }
  /-- the word written to `CMD` is a command, and it ran (R69) -/
  | command (c : CmdWord) (i : Instr) (t : State) (hd : decode c = .ok i) (he : exec i (s.setCmd c) = .next t) :
      ActionEffect s (.write 0x000 c) t
  /-- the word written to `CMD` is no command (R67) -/
  | illegal (c : CmdWord) (r : Reject) (hd : decode c = .error r) :
      ActionEffect s (.write 0x000 c) ((s.setCmd c).setErr ErrKind.illegalCommand.code)
  /-- the host wrote an admitted word other than `CMD` (R48) -/
  | write (off : Nat) (v : BusWord) (ha : admitted off = true) (hoff : off ≠ 0x000) :
      ActionEffect s (.write off v) (s.writePlace v (place off))
  /-- the reset input (R171) -/
  | reset : ActionEffect s .reset s.resetBlock

theorem issue_effect {c : CmdWord} {s t : State} (h : issue c s = .next t) : ActionEffect s (.write 0x000 c) t := by
  unfold issue at h
  cases hd : decode c with
  | error r =>
    rw [hd] at h
    cases h
    exact .illegal c r hd
  | ok i =>
    rw [hd] at h
    exact .command c i t hd h

theorem hostWrite_effect {off : Nat} {v : BusWord} {s t : State} (h : hostWrite off v s = .next t) :
    ActionEffect s (.write off v) t := by
  unfold hostWrite at h
  split at h
  next ha =>
    split at h
    next hcmd =>
      obtain rfl := (place_eq_cmd_iff off).1 hcmd
      exact issue_effect h
    next hcmd =>
      cases h
      exact .write off v ha fun h0 => hcmd ((place_eq_cmd_iff off).2 h0)
  next => cases h

theorem hostAct_effect {a : HostAction} {s t : State} (h : hostAct a s = .next t) : ActionEffect s a t := by
  cases a with
  | read off =>
    simp only [hostAct, hostRead] at h
    split at h
    next ha =>
      cases h
      exact .read off ha
    next => cases h
  | write off v => exact hostWrite_effect h
  | otherWidth w off => cases h
  | reset =>
    cases h
    exact .reset

/-- A step with a next state: the block is idle, or the host's next action had its effect (R45). -/
theorem step_cases {s t : State} (h : step s = .next t) :
    (s.host = [] ∧ t = s) ∨ ∃ a rest, s.host = a :: rest ∧ ActionEffect { s with host := rest } a t := by
  simp only [step, hostStep] at h
  split at h
  next hh =>
    cases h
    exact Or.inl ⟨hh, rfl⟩
  next a rest hh => exact Or.inr ⟨a, rest, hh, hostAct_effect h⟩

end Sys2Proof.Machine
end

section
/-! The point registers stay valid (R20, R34): every way a step writes them writes a valid Point. -/

namespace Sys2Proof.Machine

open Sys2Proof

/-- Validity of the point registers is a matter of these registers alone. -/
theorem State.pointsValid_of_pt_eq {s t : State} (h : t.pt = s.pt) (hs : s.pointsValid) : t.pointsValid := by
  intro j
  rw [State.readPt, h]
  exact hs j

theorem State.pointsValid_writePt {s : State} (hs : s.pointsValid) (d : PIdx) {r : PointReg} (hr : r.valid = true) :
    (s.writePt d r).pointsValid := by
  intro j
  by_cases h : j = d
  · rw [h, State.readPt_writePt_self]
    exact hr
  · rw [State.readPt_writePt_ne s r h]
    exact hs j

theorem State.pointsValid_resetBlock (s : State) : s.resetBlock.pointsValid :=
  State.pointsValid_of_pt_eq (s := State.reset) rfl fun j => by rw [State.reset_readPt]; rfl

/-- Below `0x200` stand no point registers (R46). -/
theorem writePlace_pt_of_lt (s : State) (v : BusWord) {off : Nat} (h : off < 0x200) :
    (s.writePlace v (place off)).pt = s.pt := by
  unfold place
  split_ifs <;> rfl

theorem onE_negpPoint {P : Point} (h : P.onE) : (negpPoint P).onE := by
  have := fact_p
  rw [negpPoint_of_onE h]
  exact onE_ecNeg h

/-- No command breaks the invariant: the Point it writes, if any, is one of the curve (R34, R142). -/
theorem exec_pointsValid {i : Instr} {s t : State} (hs : s.pointsValid) (h : exec i s = .next t) : t.pointsValid := by
  cases command_effect h with
  | failed | word | wordFlag | flag => exact State.pointsValid_of_pt_eq rfl hs
  | point d P _ _ _ hP =>
    have hon : P.onE := by
      rcases hP with hon | ⟨pa, _, rfl⟩
      · exact hon
      · exact onE_negpPoint ((valid_iff _).1 (hs pa))
    exact State.pointsValid_of_pt_eq rfl (State.pointsValid_writePt hs d (valid_toReg hon))

/-- No action of the host but a write to a point register breaks the invariant. -/
theorem ActionEffect.pointsValid {s t : State} {a : HostAction} (h : ActionEffect s a t) (hs : s.pointsValid)
    (ha : ∀ off d, a = .write off d → off < 0x200) : t.pointsValid := by
  cases h with
  | read | illegal => exact State.pointsValid_of_pt_eq rfl hs
  | command c i _ _ he => exact exec_pointsValid (State.pointsValid_of_pt_eq (t := s.setCmd c) rfl hs) he
  | write off v => exact State.pointsValid_of_pt_eq (writePlace_pt_of_lt s v (ha off v rfl)) hs
  | reset => exact s.pointsValid_resetBlock

/-- Settles O23: the idle step changes nothing, and every action but a write to a point register keeps the
invariant. -/
theorem stepsKeepPointRegistersValid : Obligations.StepsKeepPointRegistersValid := by
  intro s t hs hhost h
  rcases step_cases h with ⟨_, rfl⟩ | ⟨a, rest, hh, he⟩
  · exact hs
  · refine he.pointsValid (State.pointsValid_of_pt_eq rfl hs) ?_
    rintro off d rfl
    exact hhost off d rest hh

end Sys2Proof.Machine
end

section
/-! The wired constants and the curve functions (R10 to R14, R22 to R27): each law is carried over from the group of
the curve, in which a Point of the curve has one element (`toE_inj`). -/

namespace Sys2Proof.Machine

open Sys2Proof

/-- Settles O3: the two primes by Pocklington's criterion, the rest by evaluation. -/
theorem wiredConstantsAsStated : Obligations.WiredConstantsAsStated :=
  ⟨by decide, rfl, p_mod_4, p_prime, rfl, n_prime, n_lt_p, by decide, rfl, rfl, rfl, rfl, onE_gen, by decide,
    by decide, by decide, by decide, rfl, by decide⟩

/-! ## The group law (R22) -/

theorem ecAdd_O_right (P : Point) : ecAdd P .O = P := by cases P <;> rfl

theorem ecAdd_comm {P Q : Point} (hP : P.onE) (hQ : Q.onE) : ecAdd P Q = ecAdd Q P := by
  have := fact_p
  refine toE_inj (onE_ecAdd hP hQ) (onE_ecAdd hQ hP) ?_
  rw [toE_ecAdd hP hQ, toE_ecAdd hQ hP, add_comm]

theorem ecAdd_assoc {P Q R : Point} (hP : P.onE) (hQ : Q.onE) (hR : R.onE) :
    ecAdd (ecAdd P Q) R = ecAdd P (ecAdd Q R) := by
  have := fact_p
  have hPQ := onE_ecAdd hP hQ
  have hQR := onE_ecAdd hQ hR
  refine toE_inj (onE_ecAdd hPQ hR) (onE_ecAdd hP hQR) ?_
  rw [toE_ecAdd hPQ hR, toE_ecAdd hP hQ, toE_ecAdd hP hQR, toE_ecAdd hQ hR, add_assoc]

theorem ecAdd_ecNeg {P : Point} (hP : P.onE) : ecAdd P (ecNeg P) = .O := by
  have := fact_p
  have hN := onE_ecNeg hP
  refine toE_inj (onE_ecAdd hP hN) trivial ?_
  rw [toE_ecAdd hP hN, toE_ecNeg hP, add_neg_cancel, toE_O]

/-- Settles O40: the laws of the curve's group, carried over. -/
theorem ecAddIsAGroupLaw : Obligations.EcAddIsAGroupLaw := by
  have := fact_p
  intro P Q R hP hQ hR
  exact ⟨onE_ecAdd hP hQ, ecAdd_comm hP hQ, ecAdd_assoc hP hQ hR, rfl,
    ecAdd_O_right P, onE_ecNeg hP, ecAdd_ecNeg hP⟩

/-! ## Multiples (R24, R25) -/

/-- Only the identity stands for the zero of the group. -/
theorem toE_eq_zero_iff [Fact (Nat.Prime Config.p)] {P : Point} (hP : P.onE) : P.toE = 0 ↔ P = .O :=
  ⟨fun h => toE_inj hP (Q := .O) trivial h, fun h => by rw [h, toE_O]⟩

theorem ecMul_mod_n {k : Nat} (hk : k < 2 ^ 256) {P : Point} (hP : P.onE) : ecMul k P = ecMul (k % Config.n) P := by
  have := fact_p
  refine toE_inj (onE_ecMul hP) (onE_ecMul hP) ?_
  rw [toE_ecMul hk hP, toE_ecMul (mod_n_lt k) hP, mod_n_nsmul]

theorem ecMul_eq_O_iff {k : Nat} (hk : k < 2 ^ 256) {P : Point} (hP : P.onE) :
    ecMul k P = .O ↔ P = .O ∨ k % Config.n = 0 := by
  have := fact_p
  rw [← toE_eq_zero_iff (onE_ecMul hP), toE_ecMul hk hP, ← toE_eq_zero_iff hP]
  by_cases h0 : P.toE = 0
  · simp [h0]
  · simp [h0, nsmul_eq_zero_iff k h0]

/-- `n - 1` times a Point is its negative, as `n` times it is the identity. -/
theorem ecMul_of_succ_eq_n {k : Nat} (hk : k + 1 = Config.n) {P : Point} (hP : P.onE) : ecMul k P = ecNeg P := by
  have := fact_p
  have hlt : k < 2 ^ 256 := (Nat.lt_of_succ_le hk.le).trans n_lt_word
  refine toE_inj (onE_ecMul hP) (onE_ecNeg hP) ?_
  rw [toE_ecMul hlt hP, toE_ecNeg hP, eq_neg_iff_add_eq_zero, ← succ_nsmul, hk, n_nsmul]

/-- Settles O41: every element but zero has order `n` in the curve's group. -/
theorem ecMulHasOrderN : Obligations.EcMulHasOrderN :=
  ⟨fun _ _ hk hP => ⟨ecMul_mod_n hk hP, ecMul_eq_O_iff hk hP⟩, ecMul_n_gen,
    ecMul_of_succ_eq_n (Nat.sub_add_cancel n_pos) onE_gen⟩

/-! ## Decompression (R26, R27) -/

/-- A point with this `x` is a field element `x` and a root of `x ^ 3 + 7`. -/
theorem exists_onCurve_iff (x : Nat) :
    (∃ y, onCurve x y = true) ↔ x < Config.p ∧ IsSquareModP (x * x * x + 7) := by
  simp [onCurve, IsSquareModP, Config.curveB, and_assoc]

theorem liftX_eq_none_iff_not_square (x : Nat) {par : Nat} (hpar : par < 2) :
    liftX x par = none ↔ Config.p ≤ x ∨ ¬ IsSquareModP (x * x * x + 7) := by
  have := fact_p
  calc liftX x par = none
    _ ↔ ¬ ∃ y, onCurve x y = true := by rw [liftX_eq_none_iff x hpar]; simp
    _ ↔ Config.p ≤ x ∨ ¬ IsSquareModP (x * x * x + 7) := by rw [exists_onCurve_iff, not_and_or, not_lt]

theorem onCurve_zero (y : Nat) : onCurve 0 y = false := by
  have := fact_p
  rw [Bool.eq_false_iff]
  exact fun h => x_ne_zero h rfl

/-- Settles O42: `lift_x` is sound, and complete for the squares; at `x = 0` there is no point to find. -/
theorem liftXFindsThePoint : Obligations.LiftXFindsThePoint := by
  have := fact_p
  exact ⟨fun x par hpar => ⟨fun _ h => liftX_sound hpar h, liftX_eq_none_iff_not_square x hpar⟩,
    fun par hpar => (liftX_eq_none_iff 0 hpar).2 onCurve_zero, onCurve_zero⟩

end Sys2Proof.Machine
end

section
/-! `STATUS` and `CMD` (R38, R40, R48): what each action of the host leaves in them. -/

namespace Sys2Proof.Machine

open Sys2Proof

/-! ## The `STATUS` word (R38) -/

/-- `ERR` stands in bits 3:0 and `T` in bit 4. -/
theorem State.statusWord_toNat (s : State) : s.statusWord.toNat = s.err.toNat + 16 * s.t.toNat := by
  have key : ∀ (b : Bool) (e : BitVec 4), (0#27 ++ BitVec.ofBool b ++ e).toNat = e.toNat + 16 * b.toNat := by decide
  exact key s.t s.err

theorem State.statusWord_lt (s : State) : s.statusWord.toNat < 0x20 := by
  have ht := s.t.toNat_le
  have herr := s.err.isLt
  rw [State.statusWord_toNat]
  omega

theorem State.statusWord_congr {s t : State} (ht : t.t = s.t) (herr : t.err = s.err) : t.statusWord = s.statusWord := by
  rw [State.statusWord, State.statusWord, ht, herr]

/-! ## A write to the window leaves the status (R48) -/

@[simp] theorem writePlace_err (s : State) (v : BusWord) (pl : Place) : (s.writePlace v pl).err = s.err := by
  cases pl <;> rfl

@[simp] theorem writePlace_t (s : State) (v : BusWord) (pl : Place) : (s.writePlace v pl).t = s.t := by
  cases pl <;> rfl

theorem writePlace_cmd (s : State) (v : BusWord) {pl : Place} (h : pl ≠ .cmd) : (s.writePlace v pl).cmd = s.cmd := by
  cases pl with
  | cmd => exact absurd rfl h
  | status | reserved | word | ptX | ptY | ptInf => rfl

/-! ## `ERR` stays a code of R150 -/

/-- Whatever `ERR` held, a command leaves a legal code in it. -/
theorem exec_errLegal {i : Instr} {s t : State} (h : exec i s = .next t) : t.errLegal := by
  cases command_effect h with
  | failed e _ h7 => exact h7
  | word | wordFlag | flag | point => exact Nat.zero_le 7

theorem ActionEffect.errLegal {s t : State} {a : HostAction} (h : ActionEffect s a t) (hs : s.errLegal) :
    t.errLegal := by
  cases h with
  | read => exact hs
  | command c i _ _ he => exact exec_errLegal he
  | illegal => exact code_le_seven .illegalCommand
  | write off v =>
    rw [State.errLegal, writePlace_err]
    exact hs
  | reset => exact Nat.zero_le 7

/-- Settles O20: a command leaves a code of R150 in `ERR`, and what else writes `ERR` writes 6 or 0. -/
theorem statusStaysLegal : Obligations.StatusStaysLegal := by
  intro s t hs h
  refine ⟨?_, t.statusWord_lt⟩
  rcases step_cases h with ⟨_, rfl⟩ | ⟨a, rest, _, he⟩
  · exact hs
  · exact he.errLegal hs

/-! ## Only the `CMD` write and the reset input change `STATUS` or `CMD` -/

theorem ActionEffect.status_cmd {s t : State} {a : HostAction} (h : ActionEffect s a t)
    (hcmd : ∀ v, a ≠ .write 0x000 v) (hreset : a ≠ .reset) : t.statusWord = s.statusWord ∧ t.cmd = s.cmd := by
  cases h with
  | read => exact ⟨rfl, rfl⟩
  | command c | illegal c => exact absurd rfl (hcmd c)
  | write off v _ hoff =>
    exact ⟨State.statusWord_congr (writePlace_t ..) (writePlace_err ..),
      writePlace_cmd s v fun h0 => hoff ((place_eq_cmd_iff off).1 h0)⟩
  | reset => exact absurd rfl hreset

/-- Settles O21: of the host's actions that change `STATUS` or `CMD`, both are ruled out. -/
theorem onlyCmdWritesChangeStatus : Obligations.OnlyCmdWritesChangeStatus := by
  intro s t hcmd hreset h
  rcases step_cases h with ⟨_, rfl⟩ | ⟨a, rest, hh, he⟩
  · exact ⟨rfl, rfl⟩
  · refine he.status_cmd ?_ ?_
    · rintro v rfl
      exact hcmd v rest hh
    · rintro rfl
      exact hreset rest hh

end Sys2Proof.Machine
end

section
/-! The state after reset (R42). -/

namespace Sys2Proof.Machine

open Sys2Proof

/-- Settles O1: the register files by their reads after reset, the other fields by evaluation. -/
theorem resetLeavesTheStatedValues : Obligations.ResetLeavesTheStatedValues :=
  ⟨State.reset_readW, State.reset_readPt, rfl, rfl, rfl⟩

/-- Settles O22: `ERR` is 0, and the zeroed identity is valid. -/
theorem resetMeetsTheInvariants : Obligations.ResetMeetsTheInvariants :=
  ⟨Nat.zero_le 7, State.reset.pointsValid_resetBlock⟩

end Sys2Proof.Machine
end

section
/-! What a command writes and what it leaves (R32, R34, R35, R38, R39), read off the five cases of `CommandEffect`. -/

namespace Sys2Proof.Machine

open Sys2Proof

/-- A point of the curve stands in a register in the canonical form of R34. -/
theorem toReg_canonical {P : Point} (h : P.onE) : P.toReg = PointReg.zeroed ∨
    (P.toReg.inf = false ∧ onCurve P.toReg.x.toNat P.toReg.y.toNat = true) := by
  cases P with
  | O => exact Or.inl rfl
  | affine x y => exact Or.inr ⟨rfl, valid_toReg h⟩

/-- Settles O24: the Point written is one of the curve, for `NEGP` because its operand is. -/
theorem pointResultsAreCanonical : Obligations.PointResultsAreCanonical := by
  intro i s t pd hpd h herr hnegp
  cases command_effect h with
  | failed e h0 _ => exact absurd herr h0
  | word _ _ _ hp _ | wordFlag _ _ _ _ hp _ | flag _ _ hp _ => simp [hp] at hpd
  | point d P _ hp _ hP =>
    obtain rfl : d = pd := Option.some.inj (hp.symm.trans hpd)
    rw [State.setErr_readPt, State.readPt_writePt_self]
    rcases hP with hon | ⟨pa, hi, rfl⟩
    · exact toReg_canonical hon
    · exact toReg_canonical (onE_negpPoint ((valid_iff _).1 (hnegp pa hi)))

/-- Settles O26: no case of `CommandEffect` writes beyond the command's footprint. -/
theorem commandFrame : Obligations.CommandFrame := by
  intro i s t h
  cases command_effect h with
  | failed => exact ⟨fun _ _ => rfl, fun _ _ => rfl, fun _ => rfl, rfl, rfl, rfl⟩
  | word d v hw =>
    exact ⟨fun k hk => State.readW_writeW_ne s v fun e => hk (e ▸ hw), fun _ _ => rfl, fun _ => rfl, rfl, rfl, rfl⟩
  | wordFlag d v b hw _ hf =>
    exact ⟨fun k hk => State.readW_writeW_ne (s.setT b) v fun e => hk (e ▸ hw), fun _ _ => rfl,
      fun h0 => absurd (h0.symm.trans hf) Bool.false_ne_true, rfl, rfl, rfl⟩
  | flag b _ _ hf =>
    exact ⟨fun _ _ => rfl, fun _ _ => rfl, fun h0 => absurd (h0.symm.trans hf) Bool.false_ne_true, rfl, rfl, rfl⟩
  | point d P _ hp =>
    exact ⟨fun _ _ => rfl, fun j hj => State.readPt_writePt_ne s P.toReg fun e => hj (e ▸ hp), fun _ => rfl, rfl, rfl,
      rfl⟩

end Sys2Proof.Machine
end

section
/-! A command depends on its sources only (R174): run on two states that agree on them, each meaning takes the same
branch, and each end of a command leaves the same result. -/

namespace Sys2Proof.Machine

open Sys2Proof

/-- `t1` and `t2` show the same result of the command `i`: one error code, and on completion one value in each place
`i` writes. -/
def SameResult (i : Instr) (t1 t2 : State) : Prop :=
  t1.err = t2.err ∧
    (t1.err = 0 → (∀ k, i.wordDest = some k → t1.readW k = t2.readW k) ∧
      (∀ j, i.pointDest = some j → t1.readPt j = t2.readPt j) ∧ (i.writesFlag = true → t1.t = t2.t))

/-- Both outcomes are next states, and these show the same result of `i`. -/
def SameOutcome (i : Instr) (o1 o2 : Host.Outcome State Fault Refusal) : Prop :=
  ∃ t1 t2, o1 = .next t1 ∧ o2 = .next t2 ∧ SameResult i t1 t2

/-! ## The ends of a command -/

theorem raise_sameOutcome (i : Instr) (e : ErrKind) (s1 s2 : State) : SameOutcome i (raise e s1) (raise e s2) :=
  ⟨_, _, rfl, rfl, rfl, fun h0 => absurd h0 (code_ne_zero e)⟩

theorem completeWord_sameOutcome {i : Instr} {rd : WIdx} {v1 v2 : Nat} {s1 s2 : State} (hw : i.wordDest = some rd)
    (hp : i.pointDest = none) (hf : i.writesFlag = true → s1.t = s2.t) (hv : v1 = v2) :
    SameOutcome i (completeWord rd v1 s1) (completeWord rd v2 s2) := by
  subst hv
  refine ⟨_, _, rfl, rfl, rfl, fun _ => ⟨fun k hk => ?_, fun j hj => ?_, hf⟩⟩
  · obtain rfl : rd = k := Option.some.inj (hw.symm.trans hk)
    simp
  · simp [hp] at hj

theorem completePoint_sameOutcome {i : Instr} {pd : PIdx} (P : Point) (s1 s2 : State) (hw : i.wordDest = none)
    (hp : i.pointDest = some pd) (hf : i.writesFlag = false) :
    SameOutcome i (completePoint pd P s1) (completePoint pd P s2) := by
  refine ⟨_, _, rfl, rfl, rfl, fun _ => ⟨fun k hk => ?_, fun j hj => ?_, fun h1 => ?_⟩⟩
  · simp [hw] at hk
  · obtain rfl : pd = j := Option.some.inj (hp.symm.trans hj)
    simp
  · simp [hf] at h1

theorem completeFlag_sameOutcome {i : Instr} {b1 b2 : Bool} (s1 s2 : State) (hw : i.wordDest = none)
    (hp : i.pointDest = none) (hb : b1 = b2) : SameOutcome i (completeFlag b1 s1) (completeFlag b2 s2) := by
  subst hb
  refine ⟨_, _, rfl, rfl, rfl, fun _ => ⟨fun k hk => ?_, fun j hj => ?_, fun _ => rfl⟩⟩
  · simp [hw] at hk
  · simp [hp] at hj

theorem completeRecovery_sameOutcome {i : Instr} {pd : PIdx} (Q : Option Point) (s1 s2 : State)
    (hw : i.wordDest = none) (hp : i.pointDest = some pd) (hf : i.writesFlag = false) :
    SameOutcome i (completeRecovery pd Q s1) (completeRecovery pd Q s2) := by
  cases Q with
  | none => exact raise_sameOutcome i .recoveryFailure s1 s2
  | some P => exact completePoint_sameOutcome P s1 s2 hw hp hf

/-! ## The operand checks see the Point only (R33) -/

theorem valid_congr {q r : PointReg} (h : q.toPoint = r.toPoint) : q.valid = r.valid := by
  rw [Bool.eq_iff_iff, valid_iff, valid_iff, h]

theorem affineCoords_congr {q r : PointReg} (h : q.toPoint = r.toPoint) : q.affineCoords = r.affineCoords := by
  apply Option.ext
  rintro ⟨x, y⟩
  rw [affineCoords_eq_some_iff, affineCoords_eq_some_iff, h]

/-! ## Meanings with a branch -/

theorem execModexp_sameOutcome {rd ra rb rc : WIdx} {s1 s2 : State} (ha : s1.int ra = s2.int ra)
    (hb : s1.int rb = s2.int rb) (hc : s1.int rc = s2.int rc) :
    SameOutcome (.modexp rd ra rb rc) (execModexp rd ra rb rc s1) (execModexp rd ra rb rc s2) := by
  rw [execModexp, execModexp, ha, hb, hc]
  split
  · exact raise_sameOutcome ..
  · exact completeWord_sameOutcome rfl rfl nofun rfl

theorem inverseMod_sameOutcome {i : Instr} {m : Nat} {rd ra : WIdx} {s1 s2 : State} (hw : i.wordDest = some rd)
    (hp : i.pointDest = none) (hf : i.writesFlag = false) (ha : s1.int ra = s2.int ra) :
    SameOutcome i (inverseMod m rd ra s1) (inverseMod m rd ra s2) := by
  rw [inverseMod, inverseMod, ha]
  split
  · exact raise_sameOutcome ..
  · exact completeWord_sameOutcome hw hp (by simp [hf]) rfl

theorem execEcmul_sameOutcome {pd : PIdx} {ra : WIdx} {pb : PIdx} {s1 s2 : State} (ha : s1.int ra = s2.int ra)
    (hb : (s1.readPt pb).toPoint = (s2.readPt pb).toPoint) :
    SameOutcome (.ecmul pd ra pb) (execEcmul pd ra pb s1) (execEcmul pd ra pb s2) := by
  rw [execEcmul, execEcmul, State.scalar, State.scalar, ha, affineCoords_congr hb]
  cases (s2.readPt pb).affineCoords with
  | none => exact raise_sameOutcome ..
  | some xy =>
    dsimp only
    split
    · exact completePoint_sameOutcome _ _ _ rfl rfl rfl
    · exact completeRecovery_sameOutcome _ _ _ rfl rfl rfl

theorem execMulg_sameOutcome {pd : PIdx} {ra : WIdx} {s1 s2 : State} (ha : s1.int ra = s2.int ra) :
    SameOutcome (.mulg pd ra) (execMulg pd ra s1) (execMulg pd ra s2) := by
  rw [execMulg, execMulg, State.scalar, State.scalar, ha]
  split
  · exact completePoint_sameOutcome _ _ _ rfl rfl rfl
  · exact completeRecovery_sameOutcome _ _ _ rfl rfl rfl

theorem execEcadd_sameOutcome {pd pa pb : PIdx} {s1 s2 : State}
    (ha : (s1.readPt pa).toPoint = (s2.readPt pa).toPoint) (hb : (s1.readPt pb).toPoint = (s2.readPt pb).toPoint) :
    SameOutcome (.ecadd pd pa pb) (execEcadd pd pa pb s1) (execEcadd pd pa pb s2) := by
  rw [execEcadd, execEcadd]
  rw [valid_congr ha, valid_congr hb, ha, hb]
  split
  · exact raise_sameOutcome ..
  · cases (s2.readPt pa).toPoint with
    | O => exact completePoint_sameOutcome _ _ _ rfl rfl rfl
    | affine x1 y1 =>
      cases (s2.readPt pb).toPoint with
      | O => exact completePoint_sameOutcome _ _ _ rfl rfl rfl
      | affine x2 y2 =>
        dsimp only
        split_ifs
        · exact raise_sameOutcome ..
        · exact completePoint_sameOutcome _ _ _ rfl rfl rfl
        · exact completePoint_sameOutcome _ _ _ rfl rfl rfl

theorem execTweak_sameOutcome {pd pa : PIdx} {rb : WIdx} {s1 s2 : State}
    (ha : (s1.readPt pa).toPoint = (s2.readPt pa).toPoint) (hb : s1.int rb = s2.int rb) :
    SameOutcome (.tweak pd pa rb) (execTweak pd pa rb s1) (execTweak pd pa rb s2) := by
  rw [execTweak, execTweak, State.scalar, State.scalar, hb, affineCoords_congr ha]
  cases (s2.readPt pa).affineCoords with
  | none => exact raise_sameOutcome ..
  | some xy => exact completeRecovery_sameOutcome _ _ _ rfl rfl rfl

theorem execCompress_sameOutcome {rd : WIdx} {pa : PIdx} {s1 s2 : State}
    (ha : (s1.readPt pa).toPoint = (s2.readPt pa).toPoint) :
    SameOutcome (.compress rd pa) (execCompress rd pa s1) (execCompress rd pa s2) := by
  rw [execCompress, execCompress, affineCoords_congr ha]
  cases (s2.readPt pa).affineCoords with
  | none => exact raise_sameOutcome ..
  | some xy => exact completeWord_sameOutcome rfl rfl (fun _ => rfl) rfl

theorem execDecompress_sameOutcome {pd : PIdx} {ra : WIdx} {imm : BitVec 8} {s1 s2 : State}
    (ha : s1.int ra = s2.int ra) :
    SameOutcome (.decompress pd ra imm) (execDecompress pd ra imm s1) (execDecompress pd ra imm s2) := by
  rw [execDecompress, execDecompress, ha]
  cases liftX (s2.int ra) (imm.toNat % 2) with
  | none => exact raise_sameOutcome ..
  | some Q => exact completePoint_sameOutcome _ _ _ rfl rfl rfl

theorem execNegp_sameOutcome {pd pa : PIdx} {s1 s2 : State} (ha : (s1.readPt pa).toPoint = (s2.readPt pa).toPoint) :
    SameOutcome (.negp pd pa) (execNegp pd pa s1) (execNegp pd pa s2) := by
  rw [execNegp, execNegp, ha]
  cases (s2.readPt pa).toPoint with
  | O => exact completePoint_sameOutcome _ _ _ rfl rfl rfl
  | affine x y => exact completePoint_sameOutcome _ _ _ rfl rfl rfl

/-! ## All commands -/

theorem exec_sameOutcome (i : Instr) {s1 s2 : State} (hw : ∀ k ∈ i.wordSources, s1.int k = s2.int k)
    (hp : ∀ j ∈ i.pointSources, (s1.readPt j).toPoint = (s2.readPt j).toPoint) :
    SameOutcome i (exec i s1) (exec i s2) := by
  cases i <;> simp only [Instr.wordSources, Instr.pointSources, List.mem_cons, List.not_mem_nil, or_false,
    forall_eq_or_imp, forall_eq] at hw hp
  case addP | addN | subP | subN | mulP | mulN =>
    obtain ⟨ha, hb⟩ := hw
    exact completeWord_sameOutcome rfl rfl nofun (by rw [ha, hb])
  case redP | redN | negs => exact completeWord_sameOutcome rfl rfl nofun (by rw [hw])
  case eqP | eqN =>
    obtain ⟨ha, hb⟩ := hw
    exact completeFlag_sameOutcome _ _ rfl rfl (by rw [ha, hb])
  case parP | parN => exact completeFlag_sameOutcome _ _ rfl rfl (by rw [hw])
  case modexp =>
    obtain ⟨ha, hb, hc⟩ := hw
    exact execModexp_sameOutcome ha hb hc
  case invP | invN => exact inverseMod_sameOutcome rfl rfl rfl hw
  case recover =>
    obtain ⟨ha, hb, hc⟩ := hw
    rw [exec, exec, execRecover, execRecover, ha, hb, hc]
    exact completeRecovery_sameOutcome _ _ _ rfl rfl rfl
  case ecmul => exact execEcmul_sameOutcome hw hp
  case mulg => exact execMulg_sameOutcome hw
  case ecadd =>
    obtain ⟨ha, hb⟩ := hp
    exact execEcadd_sameOutcome ha hb
  case tweak => exact execTweak_sameOutcome hp hw
  case compress => exact execCompress_sameOutcome hp
  case decompress => exact execDecompress_sameOutcome hw
  case negp => exact execNegp_sameOutcome hp

/-- Settles O27: the two runs have the outcomes `exec_sameOutcome` compares. -/
theorem commandReadsOnlyItsSources : Obligations.CommandReadsOnlyItsSources := by
  intro i s1 s2 t1 t2 hw hp h1 h2
  obtain ⟨u1, u2, e1, e2, hr⟩ := exec_sameOutcome i (fun k hk => congrArg BitVec.toNat (hw k hk)) hp
  cases h1.symm.trans e1
  cases h2.symm.trans e2
  exact hr

end Sys2Proof.Machine
end

section
/-! SUPPORT. The register window (R46 to R50): the map and its inverse on the offsets, what a read of one place returns
after a write to another, and what a step does with each action of the host. -/

namespace Sys2Proof.Machine

open Sys2Proof

/-! ## The map (R46) -/

theorem place_offsetOf (pl : Place) : place (offsetOf pl) = pl := by
  cases pl with
  | cmd => exact place_cmd
  | status => exact place_status
  | reserved => rfl
  | word i k => exact place_word i k
  | ptX j k => exact place_ptX j k
  | ptY j k => exact place_ptY j k
  | ptInf j => exact place_ptInf j

theorem admitted_offsetOf (pl : Place) : admitted (offsetOf pl) = true := by
  rw [admitted_iff]
  cases pl with
  | cmd | status | reserved => decide
  | word | ptX | ptY | ptInf =>
    rw [offsetOf]
    omega

theorem place_reserved {off : Nat}
    (h : 0x008 ≤ off ∧ off ≤ 0x0FC ∨ ∃ j : Fin 4, 0x244 + 0x80 * j.val ≤ off ∧ off ≤ 0x27C + 0x80 * j.val) :
    place off = .reserved := by
  unfold place
  rcases h with h | ⟨j, h⟩
  · rw [if_neg, if_neg, if_pos] <;> omega
  · dsimp only
    rw [if_neg, if_neg, if_neg, if_neg, if_neg, if_neg, if_neg] <;> omega

/-- Two admitted offsets name different places, or both are reserved. -/
theorem place_ne_of_ne {a b : Nat} (ha : admitted a = true) (hb : admitted b = true) (hab : a ≠ b)
    (hr : place a ≠ .reserved) : place b ≠ place a := by
  intro h
  apply hab
  calc a = offsetOf (place a) := (offsetOf_place ha hr).symm
    _ = offsetOf (place b) := by rw [h]
    _ = b := offsetOf_place hb (h ▸ hr)

/-! ## Reads of the window after writes (R47, R48) -/

theorem State.readPlace_of_eq_offsetOf (s : State) {off : Nat} {pl : Place} (h : off = offsetOf pl) :
    s.readPlace (place off) = s.readPlace pl := by
  rw [h, place_offsetOf]

theorem State.readPlace_host (s : State) (rest : List HostAction) (pl : Place) :
    { s with host := rest }.readPlace pl = s.readPlace pl := by
  cases pl <;> rfl

theorem State.readPlace_ptInf_toNat (s : State) (j : PIdx) :
    (s.readPlace (.ptInf j)).toNat = (s.readPt j).inf.toNat := by
  rw [State.readPlace]
  cases (s.readPt j).inf <;> rfl

/-- A write to `W[i]` shows only in the words of `W[i]` that it changes. -/
theorem State.readPlace_writeW {s : State} {i : WIdx} {v : Word} {q : Place}
    (h : ∀ k, q = .word i k → wordSlice v k = wordSlice (s.readW i) k) :
    (s.writeW i v).readPlace q = s.readPlace q := by
  cases q with
  | word l k =>
    obtain rfl | hl := eq_or_ne l i
    · rw [State.readPlace, State.readPlace, State.readW_writeW_self, h k rfl]
    · rw [State.readPlace, State.readPlace, State.readW_writeW_ne s v hl]
  | cmd | status | reserved | ptX | ptY | ptInf => rfl

/-- A write to `PT[j]` shows only in the words of `PT[j]` that it changes. -/
theorem State.readPlace_writePt {s : State} {j : PIdx} {r : PointReg} {q : Place}
    (hx : ∀ k, q = .ptX j k → wordSlice r.x k = wordSlice (s.readPt j).x k)
    (hy : ∀ k, q = .ptY j k → wordSlice r.y k = wordSlice (s.readPt j).y k)
    (hinf : q = .ptInf j → r.inf = (s.readPt j).inf) : (s.writePt j r).readPlace q = s.readPlace q := by
  cases q with
  | cmd | status | reserved | word => rfl
  | ptX l k =>
    obtain rfl | hl := eq_or_ne l j
    · rw [State.readPlace, State.readPlace, State.readPt_writePt_self, hx k rfl]
    · rw [State.readPlace, State.readPlace, State.readPt_writePt_ne s r hl]
  | ptY l k =>
    obtain rfl | hl := eq_or_ne l j
    · rw [State.readPlace, State.readPlace, State.readPt_writePt_self, hy k rfl]
    · rw [State.readPlace, State.readPlace, State.readPt_writePt_ne s r hl]
  | ptInf l =>
    obtain rfl | hl := eq_or_ne l j
    · rw [State.readPlace, State.readPlace, State.readPt_writePt_self, hinf rfl]
    · rw [State.readPlace, State.readPlace, State.readPt_writePt_ne s r hl]

/-- A write to one place leaves the content of every other. -/
theorem readPlace_writePlace_ne (s : State) (v : BusWord) {pl q : Place} (h : q ≠ pl) :
    (s.writePlace v pl).readPlace q = s.readPlace q := by
  cases pl with
  | cmd =>
    cases q with
    | cmd => exact absurd rfl h
    | status | reserved | word | ptX | ptY | ptInf => rfl
  | status | reserved => rfl
  | word i k =>
    refine State.readPlace_writeW fun l hq => wordSlice_setWordSlice_ne _ v ?_
    rintro rfl
    exact h hq
  | ptX j k =>
    refine State.readPlace_writePt (fun l hq => wordSlice_setWordSlice_ne _ v ?_) (fun _ _ => rfl) fun _ => rfl
    rintro rfl
    exact h hq
  | ptY j k =>
    refine State.readPlace_writePt (fun _ _ => rfl) (fun l hq => wordSlice_setWordSlice_ne _ v ?_) fun _ => rfl
    rintro rfl
    exact h hq
  | ptInf j => exact State.readPlace_writePt (fun _ _ => rfl) (fun _ _ => rfl) fun hq => absurd hq h

/-! ## A step takes the host's next action (R45 to R50) -/

theorem step_cons (s : State) (a : HostAction) (rest : List HostAction) :
    step { s with host := a :: rest } = hostAct a { s with host := rest } := rfl

theorem step_read (s : State) (rest : List HostAction) {off : Nat} (ha : admitted off = true) :
    step { s with host := .read off :: rest } =
      .next { s with host := rest, received := s.readPlace (place off) :: s.received } := by
  rw [step_cons, hostAct, hostRead, if_pos ha, State.readPlace_host]

theorem hostWrite_of_ne_cmd (s : State) (v : BusWord) {off : Nat} (ha : admitted off = true)
    (hoff : off ≠ 0x000) : hostWrite off v s = .next (s.writePlace v (place off)) := by
  rw [hostWrite, if_pos ha]
  split
  next hcmd => exact absurd ((place_eq_cmd_iff off).1 hcmd) hoff
  next => rfl

theorem step_write (s : State) (rest : List HostAction) (v : BusWord) {off : Nat} (ha : admitted off = true)
    (hoff : off ≠ 0x000) :
    step { s with host := .write off v :: rest } = .next ({ s with host := rest }.writePlace v (place off)) :=
  hostWrite_of_ne_cmd { s with host := rest } v ha hoff

theorem step_write_offsetOf (s : State) (rest : List HostAction) (v : BusWord) {pl : Place} (h : pl ≠ .cmd) :
    step { s with host := .write (offsetOf pl) v :: rest } = .next ({ s with host := rest }.writePlace v pl) := by
  have hoff : offsetOf pl ≠ 0x000 := by
    rw [Ne, ← place_eq_cmd_iff, place_offsetOf]
    exact h
  rw [step_write s rest v (admitted_offsetOf pl) hoff, place_offsetOf]

theorem step_write_cmd (s : State) (rest : List HostAction) (c : CmdWord) :
    step { s with host := .write 0x000 c :: rest } = issue c { s with host := rest } := rfl

theorem issue_of_decode_ok {c : CmdWord} {i : Instr} (h : decode c = .ok i) (s : State) :
    issue c s = exec i (s.setCmd c) := by
  rw [issue, h]

theorem issue_of_decode_error {c : CmdWord} {e : Reject} (h : decode c = .error e) (s : State) :
    issue c s = raise .illegalCommand (s.setCmd c) := by
  rw [issue, h]

theorem step_of_not_admitted (s : State) (rest : List HostAction) (d : BusWord) {off : Nat}
    (h : ¬ admitted off = true) :
    step { s with host := .read off :: rest } = .refused (accessRefusal off) ∧
      step { s with host := .write off d :: rest } = .refused (accessRefusal off) := by
  rw [step_cons, step_cons, hostAct, hostAct, hostRead, hostWrite, if_neg h, if_neg h]
  exact ⟨rfl, rfl⟩

end Sys2Proof.Machine
end

section
/-! Accesses of the host to the window, offset by offset (R45 to R52). -/

namespace Sys2Proof.Machine

open Sys2Proof

/-- Settles O13: each clause is the content of the place the map gives for its offset. -/
theorem hostReadReturnsTheMappedWord : Obligations.HostReadReturnsTheMappedWord := by
  intro s off rest h4 hlt
  have reserved : (0x008 ≤ off ∧ off ≤ 0x0FC ∨
      ∃ j : Fin 4, 0x244 + 0x80 * j.val ≤ off ∧ off ≤ 0x27C + 0x80 * j.val) → s.readPlace (place off) = 0 := by
    intro h
    rw [place_reserved h]
    rfl
  refine ⟨s.readPlace (place off), step_read s rest ((admitted_iff off).2 ⟨hlt, h4⟩), ?_, ?_, ?_, ?_, ?_, ?_, ?_, ?_⟩
  · exact fun h => s.readPlace_of_eq_offsetOf (pl := .cmd) h
  · intro h
    rw [s.readPlace_of_eq_offsetOf (pl := .status) h]
    exact s.statusWord_toNat
  · exact fun h1 h2 => reserved (Or.inl ⟨h1, h2⟩)
  · exact fun i k h => s.readPlace_of_eq_offsetOf (pl := .word i k) h
  · exact fun j k h => s.readPlace_of_eq_offsetOf (pl := .ptX j k) h
  · exact fun j k h => s.readPlace_of_eq_offsetOf (pl := .ptY j k) h
  · intro j h
    rw [s.readPlace_of_eq_offsetOf (pl := .ptInf j) h]
    exact s.readPlace_ptInf_toNat j
  · exact fun j h1 h2 => reserved (Or.inr ⟨j, h1, h2⟩)

theorem sliceReplaced_setWordSlice (v : Word) (k : Fin 8) (d : BusWord) : SliceReplaced v (setWordSlice v k d) k d :=
  ⟨wordSlice_setWordSlice_self v k d, fun _ h => wordSlice_setWordSlice_ne v d h⟩

/-- Settles O14: each clause is the write to the place the map gives for its offset. -/
theorem hostWriteHasTheMappedEffect : Obligations.HostWriteHasTheMappedEffect := by
  intro s d rest
  refine ⟨fun i k => ?_, fun j k => ?_, fun j k => ?_, fun j => ?_, ?_, fun off h4 hr => ?_, fun i hd => ?_,
    fun e hd => ?_⟩
  · exact ⟨_, sliceReplaced_setWordSlice (s.readW i) k d, step_write_offsetOf s rest d (pl := .word i k) nofun⟩
  · exact ⟨_, sliceReplaced_setWordSlice (s.readPt j).x k d, step_write_offsetOf s rest d (pl := .ptX j k) nofun⟩
  · exact ⟨_, sliceReplaced_setWordSlice (s.readPt j).y k d, step_write_offsetOf s rest d (pl := .ptY j k) nofun⟩
  · exact step_write_offsetOf s rest d (pl := .ptInf j) nofun
  · exact step_write_offsetOf s rest d (pl := .status) nofun
  · have ha : admitted off = true := (admitted_iff off).2 ⟨by omega, h4⟩
    rw [step_write s rest d ha (by omega), place_reserved hr]
    rfl
  · rw [step_write_cmd, issue_of_decode_ok hd]
    rfl
  · rw [step_write_cmd, issue_of_decode_error hd]
    rfl

/-- Settles O15: the offsets name two places, unless the one written is reserved, where a write does nothing. -/
theorem windowWriteLeavesOtherWords : Obligations.WindowWriteLeavesOtherWords := by
  intro s t a b d rest ha hb h0 hab h
  rw [step_write s rest d ha h0] at h
  cases h
  by_cases hr : place a = .reserved
  · rw [hr]
    exact s.readPlace_host rest (place b)
  · rw [readPlace_writePlace_ne _ d (place_ne_of_ne ha hb hab hr)]
    exact s.readPlace_host rest (place b)

/-! ## Loading a word register -/

/-- The register value `u` after the words `ks` of `v` are written into it, one by one. -/
def copyWords (v : Word) (ks : List (Fin 8)) (u : Word) : Word :=
  ks.foldl (fun u k => setWordSlice u k (wordSlice v k)) u

/-- The host's writes of the words `ks` of `v` to `W[i]`. -/
def wordWrites (i : WIdx) (v : Word) (ks : List (Fin 8)) : List HostAction :=
  ks.map fun k => .write (offsetOf (.word i k)) (wordSlice v k)

theorem wordSlice_copyWords (v : Word) (l : Fin 8) (ks : List (Fin 8)) (u : Word) :
    wordSlice (copyWords v ks u) l = if l ∈ ks then wordSlice v l else wordSlice u l := by
  induction ks generalizing u with
  | nil => rfl
  | cons k ks ih =>
    rw [copyWords, List.foldl_cons, ← copyWords, ih]
    obtain rfl | hl := eq_or_ne l k
    · simp [wordSlice_setWordSlice_self]
    · simp [wordSlice_setWordSlice_ne _ _ hl, hl]

/-- All eight words of `v`, in any order, are `v`. -/
theorem copyWords_eq_of_forall_mem {v : Word} {ks : List (Fin 8)} (h : ∀ k, k ∈ ks) (u : Word) :
    copyWords v ks u = v :=
  eq_of_wordSlice_eq fun k => by rw [wordSlice_copyWords, if_pos (h k)]

theorem State.writeW_readW_self (s : State) (i : WIdx) : s.writeW i (s.readW i) = s :=
  congrArg (fun w => { s with w }) (Vector.set_getElem_self i.isLt)

theorem State.writeW_writeW_self (s : State) (i : WIdx) (u v : Word) : (s.writeW i u).writeW i v = s.writeW i v :=
  congrArg (fun w => { s with w }) (Vector.set_set u i.isLt)

theorem run_succ_of_next {M : Host.Core} {s t : M.State} (h : M.step s = .next t) (k : Nat) :
    M.run (k + 1) s = M.run k t := by
  rw [Host.Core.run, h]

theorem run_core_succ_of_next {s t : State} (h : step s = .next t) (k : Nat) :
    Host.Core.run Sys2Proof.core (k + 1) s = Host.Core.run Sys2Proof.core k t :=
  run_succ_of_next (M := Sys2Proof.core) (s := s) (t := t) h k

theorem run_wordWrites (i : WIdx) (v : Word) (rest : List HostAction) (ks : List (Fin 8)) (s : State) :
    Host.Core.run Sys2Proof.core ks.length { s with host := wordWrites i v ks ++ rest } =
      .next ({ s with host := rest }.writeW i (copyWords v ks (s.readW i))) := by
  induction ks generalizing s with
  | nil => exact congrArg _ (State.writeW_readW_self { s with host := rest } i).symm
  | cons k ks ih =>
    have hstep := step_write_offsetOf s (wordWrites i v ks ++ rest) (wordSlice v k) (pl := .word i k) nofun
    rw [List.length_cons]
    refine (run_core_succ_of_next hstep ks.length).trans ?_
    refine (ih (s.writeW i (setWordSlice (s.readW i) k (wordSlice v k)))).trans ?_
    rw [State.readW_writeW_self]
    exact congrArg _ (State.writeW_writeW_self { s with host := rest } i _ _)

/-- Settles O16: the eight words written are all the words of the register. -/
theorem eightWritesLoadAWordRegister : Obligations.EightWritesLoadAWordRegister := by
  intro s i v rest
  refine (run_wordWrites i v rest (List.finRange 8) s).trans ?_
  rw [copyWords_eq_of_forall_mem List.mem_finRange]
  rfl

/-! ## Bytes of the window (R49) -/

theorem State.windowByte_add (s : State) {off : Nat} (h : off % 4 = 0) {m : Nat} (hm : m < 4) :
    s.windowByte (off + m) = (s.readPlace (place off)).extractLsb' (24 - 8 * m) 8 := by
  have hmod : (off + m) % 4 = m := by omega
  rw [State.windowByte, hmod, Nat.add_sub_cancel]

/-- Byte `b` of a register is byte `b % 4` of its word `b / 4`. -/
theorem extractLsb'_wordSlice (v : Word) (b : Fin 32) :
    (wordSlice v ⟨b.val / 4, by omega⟩).extractLsb' (24 - 8 * (b.val % 4)) 8 = v.extractLsb' (248 - 8 * b.val) 8 := by
  apply BitVec.eq_of_getLsbD_eq
  intro m hm
  have hlt : 24 - 8 * (b.val % 4) + m < 32 := by omega
  have hbit : 224 - 32 * (b.val / 4) + (24 - 8 * (b.val % 4) + m) = 248 - 8 * b.val + m := by omega
  rw [BitVec.getLsbD_extractLsb', BitVec.getLsbD_extractLsb', getLsbD_wordSlice, hbit]
  simp [hlt]

/-- Eight window words that hold the words of `v` show the big-endian bytes of `v`. -/
theorem State.windowByte_of_words (s : State) {base : Nat} (h4 : base % 4 = 0) {v : Word}
    (h : ∀ k : Fin 8, s.readPlace (place (base + 4 * k.val)) = wordSlice v k) (b : Fin 32) :
    s.windowByte (base + b.val) = v.extractLsb' (248 - 8 * b.val) 8 := by
  have haddr : base + b.val = base + 4 * (b.val / 4) + b.val % 4 := by omega
  rw [haddr, s.windowByte_add (by omega) (Nat.mod_lt _ (by omega)), h ⟨b.val / 4, by omega⟩, extractLsb'_wordSlice]

/-- Settles O17: the registers' bytes from their words, and the bytes of a word by the aligned offset below them. -/
theorem windowBytesAreBigEndian : Obligations.WindowBytesAreBigEndian := by
  intro s
  refine ⟨fun i => ?_, fun j => ?_, fun j => ?_, fun off m h => s.windowByte_add h m.isLt⟩
  · exact s.windowByte_of_words (by omega) fun k => s.readPlace_of_eq_offsetOf (pl := .word i k) rfl
  · exact s.windowByte_of_words (by omega) fun k => s.readPlace_of_eq_offsetOf (pl := .ptX j k) rfl
  · exact s.windowByte_of_words (by omega) fun k => s.readPlace_of_eq_offsetOf (pl := .ptY j k) rfl

/-! ## Commands, the idle block and refused accesses -/

theorem State.withFetchWord_toNat (s : State) (c : CmdWord) :
    s.withFetchWord 32 c.toNat = { s with host := .write 0x000 c :: s.host } := by
  have hc : BitVec.ofNat 32 (c.toNat % 2 ^ 32) = c := by
    rw [Nat.mod_eq_of_lt c.isLt, BitVec.ofNat_toNat, BitVec.setWidth_eq]
  rw [State.withFetchWord, hc]

/-- Settles O10: the step issues the word, and a word that decodes runs. -/
theorem cmdWriteRunsTheDecodedCommand : Obligations.CmdWriteRunsTheDecodedCommand := by
  intro s c i rest hd
  rw [State.withFetchWord_toNat, step_write_cmd, step_write_cmd, issue_of_decode_ok hd, issue_of_decode_ok hd]
  exact ⟨rfl, rfl⟩

/-- Settles O12: the step looks at the host's list first. -/
theorem coreIsIdleWithoutTheHost : Obligations.CoreIsIdleWithoutTheHost := by
  intro s h
  rw [step, hostStep, h]

/-- Settles O18: `accessRefusal` asks only whether the offset is inside the window. -/
theorem unadmittedAccessIsRefused : Obligations.UnadmittedAccessIsRefused := by
  intro s off d w rest
  refine ⟨fun hout => ?_, fun hin h4 => ?_, rfl⟩
  · have hna : ¬ admitted off = true := fun h => absurd ((admitted_iff off).1 h).1 (Nat.not_lt.2 hout)
    have hname : accessRefusal off = .outsideWindow := if_neg (Nat.not_lt.2 hout)
    exact hname ▸ step_of_not_admitted s rest d hna
  · have hna : ¬ admitted off = true := fun h => h4 ((admitted_iff off).1 h).2
    have hname : accessRefusal off = .misaligned := if_pos hin
    exact hname ▸ step_of_not_admitted s rest d hna

end Sys2Proof.Machine
end

section
/-! The command words of R60 to R73. Each format of R62 is said once: which bits of the word it wants zero, as a mask
of R73, and the command it then gives. The round trips and the mask table follow from that. -/

namespace Sys2Proof

/-! ## Operand checks -/

/-- The word register a field names, from its three low bits (R63). -/
def wordOf (f : BitVec 4) : WIdx := Fin.ofNat 8 f.toNat

/-- The point register a field names, from its two low bits (R63). -/
def pointOf (f : BitVec 4) : PIdx := Fin.ofNat 4 f.toNat

@[simp] theorem wordOf_wNibble (i : WIdx) : wordOf (wNibble i) = i := by
  revert i
  decide

@[simp] theorem pointOf_pNibble (j : PIdx) : pointOf (pNibble j) = j := by
  revert j
  decide

@[simp] theorem wNibble_and_eight (i : WIdx) : wNibble i &&& 0x8#4 = 0 := by
  revert i
  decide

@[simp] theorem pNibble_and_twelve (j : PIdx) : pNibble j &&& 0xC#4 = 0 := by
  revert j
  decide

theorem wNibble_wordOf {f : BitVec 4} : f &&& 0x8#4 = 0#4 → wNibble (wordOf f) = f := by
  revert f
  decide

theorem pNibble_pointOf {f : BitVec 4} : f &&& 0xC#4 = 0#4 → pNibble (pointOf f) = f := by
  revert f
  decide

theorem bind_eq_ok_iff {α β : Type} (x : Except Reject α) (k : α → Except Reject β) (b : β) :
    (x >>= k) = .ok b ↔ ∃ a, x = .ok a ∧ k a = .ok b := by
  cases x with
  | error e => exact ⟨nofun, nofun⟩
  | ok a => exact ⟨fun h => ⟨a, rfl, h⟩, fun ⟨_, rfl, h⟩ => h⟩

@[simp] theorem pure_eq_ok_iff {α : Type} (a b : α) : (pure a : Except Reject α) = .ok b ↔ a = b :=
  ⟨Except.ok.inj, congrArg _⟩

@[simp] theorem bind_wordIndex_eq_ok_iff {α : Type} (f : BitVec 4) (k : WIdx → Except Reject α) (a : α) :
    (wordIndex f >>= k) = .ok a ↔ f &&& 0x8 = 0 ∧ k (wordOf f) = .ok a := by
  have h : ∀ f i, wordIndex f = .ok i ↔ f &&& 0x8 = 0 ∧ wordOf f = i := by decide
  simp [bind_eq_ok_iff, h, and_assoc]

@[simp] theorem bind_pointIndex_eq_ok_iff {α : Type} (f : BitVec 4) (k : PIdx → Except Reject α) (a : α) :
    (pointIndex f >>= k) = .ok a ↔ f &&& 0xC = 0 ∧ k (pointOf f) = .ok a := by
  have h : ∀ f j, pointIndex f = .ok j ↔ f &&& 0xC = 0 ∧ pointOf f = j := by decide
  simp [bind_eq_ok_iff, h, and_assoc]

@[simp] theorem bind_unused_eq_ok_iff {n : Nat} {α : Type} (f : BitVec n) (k : Unit → Except Reject α) (a : α) :
    (unused f >>= k) = .ok a ↔ f = 0 ∧ k () = .ok a := by
  simp only [bind_eq_ok_iff, unused_eq_ok_iff, Unique.exists_iff]

/-! ## Masks -/

@[simp] theorem nibble_and_ones (f : BitVec 4) : f &&& 0xF#4 = f := BitVec.and_allOnes

@[simp] theorem byte_and_ones (f : BitVec 8) : f &&& 0xFF#8 = f := BitVec.and_allOnes

@[simp] theorem extractLsb'_parity_eq_zero_iff (f : BitVec 8) : f.extractLsb' 1 7 = 0#7 ↔ f &&& 0xFE = 0 := by
  revert f
  decide

theorem fields_ofNat (m : Nat) :
    fieldOp (BitVec.ofNat 32 m) = BitVec.ofNat 8 (m / 2 ^ 24) ∧
      fieldRd (BitVec.ofNat 32 m) = BitVec.ofNat 4 (m / 2 ^ 20) ∧
      fieldRa (BitVec.ofNat 32 m) = BitVec.ofNat 4 (m / 2 ^ 16) ∧
      fieldRb (BitVec.ofNat 32 m) = BitVec.ofNat 4 (m / 2 ^ 12) ∧
      fieldRc (BitVec.ofNat 32 m) = BitVec.ofNat 4 (m / 2 ^ 8) ∧ fieldImm (BitVec.ofNat 32 m) = BitVec.ofNat 8 m := by
  refine ⟨?_, ?_, ?_, ?_, ?_, ?_⟩ <;> apply BitVec.eq_of_toNat_eq <;>
    simp only [fieldOp, fieldRd, fieldRa, fieldRb, fieldRc, fieldImm, BitVec.extractLsb'_toNat, BitVec.toNat_ofNat,
      Nat.shiftRight_eq_div_pow] <;> omega

/-- A masked word is compared field by field (R61, R73). -/
theorem and_ofNat_eq_iff (c : CmdWord) (m p : Nat) :
    c &&& BitVec.ofNat 32 m = BitVec.ofNat 32 p ↔
      fieldOp c &&& BitVec.ofNat 8 (m / 2 ^ 24) = BitVec.ofNat 8 (p / 2 ^ 24) ∧
      fieldRd c &&& BitVec.ofNat 4 (m / 2 ^ 20) = BitVec.ofNat 4 (p / 2 ^ 20) ∧
      fieldRa c &&& BitVec.ofNat 4 (m / 2 ^ 16) = BitVec.ofNat 4 (p / 2 ^ 16) ∧
      fieldRb c &&& BitVec.ofNat 4 (m / 2 ^ 12) = BitVec.ofNat 4 (p / 2 ^ 12) ∧
      fieldRc c &&& BitVec.ofNat 4 (m / 2 ^ 8) = BitVec.ofNat 4 (p / 2 ^ 8) ∧
      fieldImm c &&& BitVec.ofNat 8 m = BitVec.ofNat 8 p := by
  simp only [eq_iff_fields, fields_and, fields_ofNat]

/-! ## Formats (R62): the bits that must be zero, and the command -/

@[simp] theorem decodeW3_eq_ok_iff (mk : WIdx → WIdx → WIdx → Instr) (c : CmdWord) (i : Instr) :
    decodeW3 mk c = .ok i ↔
      c &&& 0x00888FFF = 0 ∧ mk (wordOf (fieldRd c)) (wordOf (fieldRa c)) (wordOf (fieldRb c)) = i := by
  simp [decodeW3, -bind_pure_comp, and_ofNat_eq_iff, and_assoc]

@[simp] theorem decodeW2_eq_ok_iff (mk : WIdx → WIdx → Instr) (c : CmdWord) (i : Instr) :
    decodeW2 mk c = .ok i ↔ c &&& 0x0088FFFF = 0 ∧ mk (wordOf (fieldRd c)) (wordOf (fieldRa c)) = i := by
  simp [decodeW2, -bind_pure_comp, and_ofNat_eq_iff, and_assoc]

@[simp] theorem decodeT2_eq_ok_iff (mk : WIdx → WIdx → Instr) (c : CmdWord) (i : Instr) :
    decodeT2 mk c = .ok i ↔ c &&& 0x00F88FFF = 0 ∧ mk (wordOf (fieldRa c)) (wordOf (fieldRb c)) = i := by
  simp [decodeT2, -bind_pure_comp, and_ofNat_eq_iff, and_assoc]

@[simp] theorem decodeT1_eq_ok_iff (mk : WIdx → Instr) (c : CmdWord) (i : Instr) :
    decodeT1 mk c = .ok i ↔ c &&& 0x00F8FFFF = 0 ∧ mk (wordOf (fieldRa c)) = i := by
  simp [decodeT1, -bind_pure_comp, and_ofNat_eq_iff, and_assoc]

@[simp] theorem decodeW4_eq_ok_iff (mk : WIdx → WIdx → WIdx → WIdx → Instr) (c : CmdWord) (i : Instr) :
    decodeW4 mk c = .ok i ↔
      c &&& 0x008888FF = 0 ∧
        mk (wordOf (fieldRd c)) (wordOf (fieldRa c)) (wordOf (fieldRb c)) (wordOf (fieldRc c)) = i := by
  simp [decodeW4, -bind_pure_comp, and_ofNat_eq_iff, and_assoc]

@[simp] theorem decodeREC_eq_ok_iff (mk : PIdx → WIdx → WIdx → WIdx → BitVec 8 → Instr) (c : CmdWord) (i : Instr) :
    decodeREC mk c = .ok i ↔
      c &&& 0x00C88800 = 0 ∧
        mk (pointOf (fieldRd c)) (wordOf (fieldRa c)) (wordOf (fieldRb c)) (wordOf (fieldRc c)) (fieldImm c) = i := by
  simp [decodeREC, -bind_pure_comp, and_ofNat_eq_iff, and_assoc]

@[simp] theorem decodePWP_eq_ok_iff (mk : PIdx → WIdx → PIdx → Instr) (c : CmdWord) (i : Instr) :
    decodePWP mk c = .ok i ↔
      c &&& 0x00C8CFFF = 0 ∧ mk (pointOf (fieldRd c)) (wordOf (fieldRa c)) (pointOf (fieldRb c)) = i := by
  simp [decodePWP, -bind_pure_comp, and_ofNat_eq_iff, and_assoc]

@[simp] theorem decodePW_eq_ok_iff (mk : PIdx → WIdx → Instr) (c : CmdWord) (i : Instr) :
    decodePW mk c = .ok i ↔ c &&& 0x00C8FFFF = 0 ∧ mk (pointOf (fieldRd c)) (wordOf (fieldRa c)) = i := by
  simp [decodePW, -bind_pure_comp, and_ofNat_eq_iff, and_assoc]

@[simp] theorem decodeP3_eq_ok_iff (mk : PIdx → PIdx → PIdx → Instr) (c : CmdWord) (i : Instr) :
    decodeP3 mk c = .ok i ↔
      c &&& 0x00CCCFFF = 0 ∧ mk (pointOf (fieldRd c)) (pointOf (fieldRa c)) (pointOf (fieldRb c)) = i := by
  simp [decodeP3, -bind_pure_comp, and_ofNat_eq_iff, and_assoc]

@[simp] theorem decodePPW_eq_ok_iff (mk : PIdx → PIdx → WIdx → Instr) (c : CmdWord) (i : Instr) :
    decodePPW mk c = .ok i ↔
      c &&& 0x00CC8FFF = 0 ∧ mk (pointOf (fieldRd c)) (pointOf (fieldRa c)) (wordOf (fieldRb c)) = i := by
  simp [decodePPW, -bind_pure_comp, and_ofNat_eq_iff, and_assoc]

@[simp] theorem decodeWP_eq_ok_iff (mk : WIdx → PIdx → Instr) (c : CmdWord) (i : Instr) :
    decodeWP mk c = .ok i ↔ c &&& 0x008CFFFF = 0 ∧ mk (wordOf (fieldRd c)) (pointOf (fieldRa c)) = i := by
  simp [decodeWP, -bind_pure_comp, and_ofNat_eq_iff, and_assoc]

@[simp] theorem decodePWI_eq_ok_iff (mk : PIdx → WIdx → BitVec 8 → Instr) (c : CmdWord) (i : Instr) :
    decodePWI mk c = .ok i ↔
      c &&& 0x00C8FFFE = 0 ∧ mk (pointOf (fieldRd c)) (wordOf (fieldRa c)) (fieldImm c) = i := by
  simp [decodePWI, -bind_pure_comp, and_ofNat_eq_iff, and_assoc]

@[simp] theorem decodeP2_eq_ok_iff (mk : PIdx → PIdx → Instr) (c : CmdWord) (i : Instr) :
    decodeP2 mk c = .ok i ↔ c &&& 0x00CCFFFF = 0 ∧ mk (pointOf (fieldRd c)) (pointOf (fieldRa c)) = i := by
  simp [decodeP2, -bind_pure_comp, and_ofNat_eq_iff, and_assoc]

/-! ## Bit 24 -/

theorem fields_or (c d : CmdWord) :
    fieldOp (c ||| d) = fieldOp c ||| fieldOp d ∧ fieldRd (c ||| d) = fieldRd c ||| fieldRd d ∧
      fieldRa (c ||| d) = fieldRa c ||| fieldRa d ∧ fieldRb (c ||| d) = fieldRb c ||| fieldRb d ∧
      fieldRc (c ||| d) = fieldRc c ||| fieldRc d ∧ fieldImm (c ||| d) = fieldImm c ||| fieldImm d :=
  ⟨BitVec.extractLsb'_or, BitVec.extractLsb'_or, BitVec.extractLsb'_or, BitVec.extractLsb'_or, BitVec.extractLsb'_or,
    BitVec.extractLsb'_or⟩

/-- Bit 24 of the word is bit 0 of the opcode (R61). -/
theorem pack_or_bit24 (op : BitVec 8) (rd ra rb rc : BitVec 4) (imm : BitVec 8) :
    pack op rd ra rb rc imm ||| 0x01000000 = pack (op ||| 1) rd ra rb rc imm := by
  simp [eq_iff_fields, fields_or, fields_ofNat]

end Sys2Proof
end

section
/-! The round trips of the encoding and the mask table (R64, R66, R69, R73, R80). -/

namespace Sys2Proof.Machine

open Sys2Proof

/-- Settles O4: each format's operand fields hold nibbles of their registers, and its other fields are zero. -/
theorem decodeOfEncodeIsTheCommand : Obligations.DecodeOfEncodeIsTheCommand := by
  intro i hi
  cases i with
  | decompress pd ra imm =>
    have hpar : imm &&& 0xFE = 0 := by simpa [Instr.wf] using hi
    simpa [encode, decode, and_ofNat_eq_iff] using hpar
  | _ => simp [encode, decode, and_ofNat_eq_iff]

/-- Settles O5: under its mask a format gives a command whose nibbles are the word's operand fields, and the word has
no other bits. -/
theorem encodeOfDecodeIsTheWord : Obligations.EncodeOfDecodeIsTheWord := by
  intro c i h
  have hop : BitVec.ofNat 8 (fieldOp c).toNat = fieldOp c := by rw [BitVec.ofNat_toNat, BitVec.setWidth_eq]
  unfold decode at h
  split at h
  case h_25 => cases h
  all_goals
    next hrow =>
    rw [hrow] at hop
    simp only [decodeW3_eq_ok_iff, decodeW2_eq_ok_iff, decodeT2_eq_ok_iff, decodeT1_eq_ok_iff, decodeW4_eq_ok_iff,
      decodeREC_eq_ok_iff, decodePWP_eq_ok_iff, decodePW_eq_ok_iff, decodeP3_eq_ok_iff, decodePPW_eq_ok_iff,
      decodeWP_eq_ok_iff, decodePWI_eq_ok_iff, decodeP2_eq_ok_iff] at h
    obtain ⟨hm, rfl⟩ := h
    simp only [BitVec.ofNat_eq_ofNat, and_ofNat_eq_iff, Nat.reducePow, Nat.reduceDiv, BitVec.reduceOfNat,
      nibble_and_ones, byte_and_ones] at hm
    simp [encode, Instr.wf, eq_iff_fields, hop, hm, wNibble_wordOf, pNibble_pointOf]

/-- Every mask of R73 covers the opcode. -/
theorem fieldOp_of_matches {r : Row} (hr : r ∈ opcodeTable) {c : CmdWord} (h : c &&& r.mask = r.pattern) :
    fieldOp c = fieldOp r.pattern := by
  have hmask : ∀ r ∈ opcodeTable, fieldOp r.mask = 0xFF#8 := by decide
  rw [← h, (fields_and c r.mask).1, hmask r hr, byte_and_ones]

theorem mnemonic_eq_iff_fieldOp {r : Row} (hr : r ∈ opcodeTable) (i : Instr) :
    i.mnemonic = r.mnemonic ↔ fieldOp (encode i) = fieldOp r.pattern := by
  revert r
  cases i <;> simp only [encode, fieldOp_pack, Instr.mnemonic] <;> decide

/-- Under the opcode of a row, the row's mask is that of the format its decoder reads. -/
theorem matches_iff_decodes {r : Row} (hr : r ∈ opcodeTable) {c : CmdWord} (hop : fieldOp c = fieldOp r.pattern) :
    c &&& r.mask = r.pattern ↔ ∃ i, decode c = .ok i := by
  fin_cases hr <;> simp only [BitVec.ofNat_eq_ofNat, fields_ofNat] at hop <;> simp [decode, hop, and_ofNat_eq_iff]

/-- Settles O6: row and command have one opcode, and under it the format's mask decides. -/
theorem decodeIsTheMaskTable : Obligations.DecodeIsTheMaskTable := by
  intro c r hr
  constructor
  · intro h
    have hop := fieldOp_of_matches hr h
    obtain ⟨i, hi⟩ := (matches_iff_decodes hr hop).1 h
    refine ⟨i, hi, (mnemonic_eq_iff_fieldOp hr i).2 ?_⟩
    rw [(encodeOfDecodeIsTheWord c i hi).2, hop]
  · rintro ⟨i, hi, hm⟩
    have hop := (mnemonic_eq_iff_fieldOp hr i).1 hm
    rw [(encodeOfDecodeIsTheWord c i hi).2] at hop
    exact (matches_iff_decodes hr hop).2 ⟨i, hi⟩

/-- Settles O7: two rows the word matches have its opcode, and no two rows have the same. -/
theorem opcodeRowsExclude : Obligations.OpcodeRowsExclude := by
  intro c q r hq hr hcq hcr
  have hinj : ∀ q ∈ opcodeTable, ∀ r ∈ opcodeTable, fieldOp q.pattern = fieldOp r.pattern → q = r := by decide
  exact hinj q hq r hr ((fieldOp_of_matches hq hcq).symm.trans (fieldOp_of_matches hr hcr))

/-- Settles O8: the opcodes of a pair differ in bit 0. -/
theorem bitTwentyFourSelectsTheModulus : Obligations.BitTwentyFourSelectsTheModulus := by
  intro rd ra rb
  simp only [encode, pack_or_bit24]
  exact ⟨rfl, rfl, rfl, rfl, rfl, rfl, rfl⟩

end Sys2Proof.Machine
end

section
/-! The field commands (R80 to R94). A command word written as a number is the encoding of the command, a command that
completes has the whole effect its end says, and the laws hold of each operation modulo any `m` that fits a register. -/

namespace Sys2Proof.Machine

open Sys2Proof

/-! ## Command words as numbers (R61, R62) -/

@[simp] theorem wNibble_toNat (i : WIdx) : (wNibble i).toNat = i.val := by
  revert i
  decide

/-- A number with the value of a well-formed command's word decodes to the command. Both conditions are found where
the command is known and its immediate is none. -/
theorem decode_ofNat {i : Instr} {c : Nat} (hi : i.wf = true := by rfl)
    (hc : (encode i).toNat = c := by simp [encode, pack_toNat]) : decode (BitVec.ofNat 32 c) = .ok i := by
  rw [← hc, BitVec.ofNat_toNat, BitVec.setWidth_eq]
  exact decodeOfEncodeIsTheCommand i hi

/-! ## The whole effect of a command that completes (R17, R32, R38) -/

theorem wroteWord_of_completeWord {rd : WIdx} {v : Nat} {s t : State} (h : completeWord rd v s = .next t)
    (hv : v < 2 ^ 256) : WroteWord s t rd v := by
  cases h
  refine ⟨?_, fun k hk => State.readW_writeW_ne s _ hk, rfl, rfl, rfl, rfl, rfl, rfl⟩
  rw [State.setErr_readW, State.readW_writeW_self, toNat_ofNat_word hv]

theorem completes_of_exec_eq_completeWord {i : Instr} {s : State} {rd : WIdx} {v : Nat}
    (h : exec i s = completeWord rd v s) (hv : v < 2 ^ 256) : Completes i s (WroteWord s · rd v) :=
  ⟨_, h, wroteWord_of_completeWord rfl hv⟩

theorem completes_of_exec_eq_completeFlag {i : Instr} {s : State} {b : Bool} (h : exec i s = completeFlag b s) :
    Completes i s (WroteFlag s · b) :=
  ⟨_, h, rfl, rfl, rfl, rfl, rfl, rfl, rfl⟩

/-- A second result in the same register leaves nothing of the first. -/
theorem completeWord_completeWord {rd : WIdx} {v : Nat} {s t : State} (h : completeWord rd v s = .next t) (u : Nat) :
    completeWord rd u t = completeWord rd u s := by
  cases h
  calc completeWord rd u ((s.writeW rd (BitVec.ofNat 256 v)).setErr 0)
      = .next (((s.writeW rd (BitVec.ofNat 256 v)).writeW rd (BitVec.ofNat 256 u)).setErr 0) := rfl
    _ = completeWord rd u s := by rw [State.writeW_writeW_self, completeWord_eq]

/-! ## Arithmetic modulo `m` (R16) -/

/-- An operand below `2 m` takes at most one subtraction (R88, R89). -/
theorem mod_eq_sub_of_lt_two_mul {a m : Nat} (h : a < 2 * m) : a % m = if a < m then a else a - m := by
  split
  next hlt => exact Nat.mod_eq_of_lt hlt
  next hge => rw [Nat.mod_eq_sub_mod (Nat.not_lt.1 hge), Nat.mod_eq_of_lt (by omega)]

theorem word_lt_two_p (w : Word) : w.toNat < 2 * Config.p :=
  w.isLt.trans (by decide)

theorem word_lt_two_n (w : Word) : w.toNat < 2 * Config.n :=
  w.isLt.trans (by decide)

/-- Adding the negation of `b`, as `NEGS` forms it (R141), subtracts `b`. -/
theorem add_neg_mod {m : Nat} (hm : 0 < m) (a b : Nat) :
    (a + (m - b % m) % m) % m = modZ ((a : Int) - b) m := by
  have hb : b % m ≤ m := (Nat.mod_lt b hm).le
  have hcast : ((m - b % m : Nat) : Int) = m - (b : Int) % m := by
    rw [Nat.cast_sub hb, Int.natCast_emod]
  zify
  calc ((a : Int) + ((m - b % m : Nat) : Int) % m) % m
      = ((a : Int) - (b : Int) % m + m) % m := by rw [Int.add_emod_emod, hcast, add_sub_left_comm, add_comm]
    _ = ((a : Int) - b) % m := by rw [Int.add_emod_right, Int.sub_emod_emod]
    _ = (modZ ((a : Int) - b) m : Int) := (modZ_cast hm _).symm

/-! ## Laws of the operations, for any modulus (R94) -/

section Laws

variable (m : Nat) {rd ra rb : WIdx} {s : State}

theorem fieldAdd_comm : fieldAdd m rd ra rb s = fieldAdd m rd rb ra s := by
  rw [fieldAdd, fieldAdd, Nat.add_comm]

theorem fieldMul_comm : fieldMul m rd ra rb s = fieldMul m rd rb ra s := by
  rw [fieldMul, fieldMul, Nat.mul_comm]

theorem fieldAdd_of_int_eq_zero (h : s.int rb = 0) : fieldAdd m rd ra rb s = fieldRed m rd ra s := by
  rw [fieldAdd, fieldRed, h, Nat.add_zero]

theorem fieldMul_of_int_eq_one (h : s.int rb = 1) : fieldMul m rd ra rb s = fieldRed m rd ra s := by
  rw [fieldMul, fieldRed, h, Nat.mul_one]

/-- A canonical value is its own reduction. -/
theorem fieldRed_of_fieldRed (hm : 0 < m) (hw : m < 2 ^ 256) {t : State} (h : fieldRed m rd ra s = .next t) :
    fieldRed m rd rd t = .next t := by
  obtain ⟨hd, -⟩ := wroteWord_of_completeWord h ((Nat.mod_lt _ hm).trans hw)
  rw [fieldRed, State.int, hd, Nat.mod_mod, completeWord_completeWord h]
  exact h

end Laws

theorem fieldSub_of_int_eq_zero {rd ra rb : WIdx} {s : State} (h : s.int ra = 0) :
    fieldSub Config.n rd ra rb s = execNegs rd rb s := by
  rw [fieldSub, execNegs, h, ← add_neg_mod n_pos, Nat.zero_add, Nat.mod_mod]

/-- Adding what `NEGS` left is subtracting, when the minuend is still there. -/
theorem fieldAdd_of_execNegs {rd ra rb : WIdx} {s t : State} (h : execNegs rd rb s = .next t) (hne : ra ≠ rd) :
    fieldAdd Config.n rd ra rd t = fieldSub Config.n rd ra rb s := by
  obtain ⟨hd, hother, -⟩ := wroteWord_of_completeWord h (mod_n_lt _)
  have hra : t.int ra = s.int ra := congrArg BitVec.toNat (hother ra hne)
  have hrd : t.int rd = (Config.n - s.int rb % Config.n) % Config.n := hd
  rw [fieldAdd, hra, hrd, add_neg_mod n_pos, completeWord_completeWord h, fieldSub]

/-! ## The statements: a word, then the end of the command, for either modulus -/

/-- Settles O37: each law is the operation's, at the two moduli. -/
theorem fieldCommandLaws : Obligations.FieldCommandLaws := by
  intro rd ra rb s
  refine ⟨fieldAdd_comm _, fieldAdd_comm _, fieldMul_comm _, fieldMul_comm _,
    fun h => ⟨fieldAdd_of_int_eq_zero _ h, fieldAdd_of_int_eq_zero _ h⟩,
    fun h => ⟨fieldMul_of_int_eq_one _ h, fieldMul_of_int_eq_one _ h⟩, fieldSub_of_int_eq_zero,
    fun _ => fieldRed_of_fieldRed _ p_pos p_lt_word, fun _ => fieldRed_of_fieldRed _ n_pos n_lt_word, ?_⟩
  intro t u hneg hne hadd
  exact (fieldAdd_of_execNegs hneg hne).symm.trans hadd

/-- Settles O9 by evaluation of the decoder. -/
theorem printedWordsDecode : Obligations.PrintedWordsDecode := by
  unfold Obligations.PrintedWordsDecode
  decide

/-- Settles O31: the sum is reduced below `2^256`, so the register holds it. -/
theorem addResult : Obligations.AddResult := fun _ _ _ _ =>
  ⟨decode_ofNat, completes_of_exec_eq_completeWord rfl (mod_p_lt _),
    decode_ofNat, completes_of_exec_eq_completeWord rfl (mod_n_lt _)⟩

/-- Settles O32: `modZ` is the representative. -/
theorem subResult : Obligations.SubResult := fun _ _ _ _ =>
  ⟨decode_ofNat,
    ⟨_, modZ_cast p_pos _, completes_of_exec_eq_completeWord rfl ((modZ_lt p_pos _).trans p_lt_word)⟩,
    decode_ofNat,
    ⟨_, modZ_cast n_pos _, completes_of_exec_eq_completeWord rfl ((modZ_lt n_pos _).trans n_lt_word)⟩⟩

/-- Settles O33: as for the sum, of the product. -/
theorem mulResult : Obligations.MulResult := fun _ _ _ _ =>
  ⟨decode_ofNat, completes_of_exec_eq_completeWord rfl (mod_p_lt _),
    decode_ofNat, completes_of_exec_eq_completeWord rfl (mod_n_lt _)⟩

/-- Settles O34: a register is below twice either modulus. -/
theorem redResult : Obligations.RedResult := fun _ _ _ =>
  ⟨decode_ofNat, completes_of_exec_eq_completeWord rfl (mod_p_lt _), mod_eq_sub_of_lt_two_mul (word_lt_two_p _),
    decode_ofNat, completes_of_exec_eq_completeWord rfl (mod_n_lt _), mod_eq_sub_of_lt_two_mul (word_lt_two_n _)⟩

/-- Settles O35: `EQ` ends in a flag. -/
theorem eqResult : Obligations.EqResult := fun _ _ _ =>
  ⟨decode_ofNat, completes_of_exec_eq_completeFlag rfl,
    decode_ofNat, completes_of_exec_eq_completeFlag rfl⟩

/-- Settles O36: `PAR` ends in a flag. -/
theorem parResult : Obligations.ParResult := fun _ _ =>
  ⟨decode_ofNat, completes_of_exec_eq_completeFlag rfl,
    decode_ofNat, completes_of_exec_eq_completeFlag rfl⟩

end Sys2Proof.Machine
end

section
/-! Exponentiation and the inverse (R100 to R104): how each engine ends, by its first test. -/

namespace Sys2Proof.Machine

open Sys2Proof

theorem execModexp_of_int_eq_zero {rd ra rb rc : WIdx} {s : State} (h : s.int rc = 0) :
    execModexp rd ra rb rc s = raise .badModulus s :=
  if_pos h

theorem execModexp_of_int_ne_zero {rd ra rb rc : WIdx} {s : State} (h : s.int rc ≠ 0) :
    execModexp rd ra rb rc s = completeWord rd (s.int ra ^ s.int rb % s.int rc) s := by
  rw [execModexp, if_neg h, modexp_eq]

section Inverse

variable {m : Nat} {i : Instr} {rd ra : WIdx} {s : State}

theorem inverseMod_of_mod_eq_zero (h : s.int ra % m = 0) : inverseMod m rd ra s = raise .zeroInverse s :=
  if_pos h

theorem inverseMod_of_mod_ne_zero (h : s.int ra % m ≠ 0) :
    inverseMod m rd ra s = completeWord rd (inv (s.int ra % m) m) s :=
  if_neg h

/-- The inverse of an operand is that of its remainder. -/
theorem inv_mod (a m : Nat) : inv (a % m) m = inv a m := by
  rw [inv, inv, Nat.mod_mod]

/-- Modulo a prime that fits a register, the inverse service of an invertible operand leaves the Fermat power, and
that is the inverse of the operand (R19). -/
theorem completes_of_exec_eq_inverseMod (hexec : exec i s = inverseMod m rd ra s) (hm : m.Prime) (hw : m < 2 ^ 256)
    (h : s.int ra % m ≠ 0) :
    ∃ r, Completes i s (WroteWord s · rd r) ∧ r = (s.int ra % m) ^ (m - 2) % m ∧ (r * s.int ra) % m = 1 := by
  refine ⟨inv (s.int ra % m) m, ?_, inv_eq _ _, ?_⟩
  · exact completes_of_exec_eq_completeWord (hexec.trans (inverseMod_of_mod_ne_zero h)) ((inv_lt hm.pos _).trans hw)
  · rw [inv_mod]
    exact inv_mul_mod hm h

end Inverse

/-- Settles O38: a power reduced by a register is below that register, so the destination holds it. -/
theorem modexpResult : Obligations.ModexpResult := by
  intro rd ra rb rc s
  refine ⟨decode_ofNat, execModexp_of_int_eq_zero, fun h => ?_⟩
  have hlt : s.int ra ^ s.int rb % s.int rc < 2 ^ 256 :=
    (Nat.mod_lt _ (Nat.pos_of_ne_zero h)).trans (s.readW rc).isLt
  exact completes_of_exec_eq_completeWord (execModexp_of_int_ne_zero h) hlt

/-- Settles O39: both moduli are primes that fit a register. -/
theorem inverseResult : Obligations.InverseResult := fun _ _ _ =>
  ⟨decode_ofNat, inverseMod_of_mod_eq_zero, completes_of_exec_eq_inverseMod rfl p_prime p_lt_word,
    decode_ofNat, inverseMod_of_mod_eq_zero, completes_of_exec_eq_inverseMod rfl n_prime n_lt_word⟩

end Sys2Proof.Machine
end

section
/-! The recovery engine (R110 to R122). Each command that calls `recover` is brought to the end it has, a report or a
point in closed form; what the commands do to one another (R122) then follows from their whole effects. -/

namespace Sys2Proof.Machine

open Sys2Proof

@[simp] theorem pNibble_toNat (j : PIdx) : (pNibble j).toNat = j.val := by
  revert j
  decide

/-! ## The whole effect of a command that writes a point register (R17, R35) -/

theorem wrotePoint_of_completePoint {pd : PIdx} {P : Point} {s t : State} (h : completePoint pd P s = .next t) :
    WrotePoint s t pd P.toReg := by
  cases h
  exact ⟨State.readPt_writePt_self s pd _, fun j hj => State.readPt_writePt_ne s _ hj, rfl, rfl, rfl, rfl, rfl, rfl⟩

theorem completes_of_exec_eq_completePoint {i : Instr} {s : State} {pd : PIdx} {P : Point}
    (h : exec i s = completePoint pd P s) : Completes i s (WrotePoint s · pd P.toReg) :=
  ⟨_, h, wrotePoint_of_completePoint rfl⟩

/-- The next state of a command that completes is the one its effect speaks of. -/
theorem Completes.of_exec {i : Instr} {s t : State} {Q : State → Prop} (h : Completes i s Q)
    (ht : exec i s = .next t) : Q t := by
  obtain ⟨u, hu, hQ⟩ := h
  cases hu.symm.trans ht
  exact hQ

theorem Completes.wrotePoint {i : Instr} {s t : State} {pd : PIdx} {r : PointReg}
    (h : Completes i s (WrotePoint s · pd r)) (ht : exec i s = .next t) : t.err = 0 ∧ t.readPt pd = r := by
  obtain ⟨hd, -, -, -, herr, -⟩ := h.of_exec ht
  exact ⟨herr, hd⟩

theorem Fails.err_eq {i : Instr} {s t : State} {e : BitVec 4} (h : Fails i s e) (ht : exec i s = .next t) :
    t.err = e := by
  cases h.symm.trans ht
  rfl

/-! ## Point operands (R20, R33, R112) -/

theorem toPoint_of_inf_eq_false {r : PointReg} (h : r.inf = false) : r.toPoint = .affine r.x.toNat r.y.toNat := by
  simp [PointReg.toPoint, h]

theorem toPoint_eq_O_iff (r : PointReg) : r.toPoint = .O ↔ r.inf = true := by
  cases h : r.inf <;> simp [PointReg.toPoint, h]

theorem affineCoords_of_not_point {r : PointReg} (h : r.inf = true ∨ r.valid = false) : r.affineCoords = none :=
  (affineCoords_eq_none_iff r).2 (h.imp_right fun hv => (Bool.or_eq_false_iff.1 hv).2)

theorem affineCoords_of_valid {r : PointReg} (hinf : r.inf = false) (hv : r.valid = true) :
    r.affineCoords = some (r.x.toNat, r.y.toNat) :=
  (affineCoords_eq_some_iff r _ _).2 ⟨toPoint_of_inf_eq_false hinf, (valid_iff r).1 hv⟩

theorem onCurve_of_valid {r : PointReg} (hinf : r.inf = false) (hv : r.valid = true) :
    onCurve r.x.toNat r.y.toNat = true := by
  have h := (valid_iff r).1 hv
  rwa [toPoint_of_inf_eq_false hinf] at h

/-- With `inf = 0` a Point has one record only, so equality of registers is equality of Points (R33). -/
theorem toReg_eq_iff {P : Point} (hP : P.onE) {r : PointReg} (hinf : r.inf = false) : P.toReg = r ↔ P = r.toPoint := by
  constructor
  · intro h
    rw [← h, toPoint_toReg hP]
  · rintro rfl
    obtain ⟨inf, x, y⟩ := r
    cases hinf
    simp [PointReg.toPoint, Point.toReg]

/-! ## Multiples and sums (R21 to R24) -/

theorem ecMul_zero {P : Point} (hP : P.onE) : ecMul 0 P = .O :=
  (ecMul_eq_O_iff (by decide) hP).2 (Or.inr rfl)

theorem ecMul_mod_n_eq_O_iff (k : Nat) {P : Point} (hP : P.onE) :
    ecMul (k % Config.n) P = .O ↔ P = .O ∨ k % Config.n = 0 := by
  rw [ecMul_eq_O_iff (mod_n_lt k) hP, Nat.mod_mod]

theorem onE_ecMul_gen (k : Nat) : (ecMul k gen).onE :=
  have := fact_p
  onE_ecMul onE_gen

/-- Multiples compose: the scalars multiply modulo `n` (R122 (a)). -/
theorem ecMul_ecMul (a b : Nat) {P : Point} (hP : P.onE) :
    ecMul (a % Config.n) (ecMul (b % Config.n) P) = ecMul (a * b % Config.n) P := by
  have := fact_p
  have hbP := onE_ecMul (k := b % Config.n) hP
  refine toE_inj (onE_ecMul hbP) (onE_ecMul hP) ?_
  rw [toE_ecMul (mod_n_lt a) hbP, toE_ecMul (mod_n_lt b) hP, toE_ecMul (mod_n_lt _) hP]
  simp only [mod_n_nsmul, mul_nsmul']

/-- A sum is the identity exactly for a Point and its negative (R121). -/
theorem ecAdd_eq_O_iff {P Q : Point} (hP : P.onE) (hQ : Q.onE) : ecAdd P Q = .O ↔ Q = ecNeg P := by
  have := fact_p
  constructor
  · intro h
    refine toE_inj hQ (onE_ecNeg hP) ?_
    rw [toE_ecNeg hP, eq_comm, neg_eq_iff_add_eq_zero, ← toE_ecAdd hP hQ, h, toE_O]
  · rintro rfl
    exact ecAdd_ecNeg hP

/-! ## `recover` on the tuples of the commands (R111, R114, R121) -/

/-- The six causes of R111, the failure of `lift_x` said by its squares. -/
theorem recover_eq_none_of_cause {z r s v : Nat}
    (h : 2 ≤ v ∨ r = 0 ∨ Config.n ≤ r ∨ s = 0 ∨ Config.n ≤ s ∨ ¬ IsSquareModP (r * r * r + 7)) :
    recover z r s v = none := by
  rw [recover_eq_none_iff]
  by_cases hv : 2 ≤ v
  · exact Or.inl hv
  · have hlift := liftX_eq_none_iff_not_square r (not_le.1 hv)
    tauto

theorem recover_of_onCurve {z r s y : Nat} (hr0 : r ≠ 0) (hrn : r < Config.n) (hs0 : s ≠ 0) (hsn : s < Config.n)
    (hon : onCurve r y = true) :
    recover z r s (y % 2) = some (ecMul (inv r Config.n)
      (ecAdd (ecMul s (.affine r y)) (ecNeg (ecMul (z % Config.n) gen)))) := by
  have := fact_p
  rw [recover, if_neg (by omega), if_neg (by omega), if_neg (by omega), liftX_of_onCurve hon]

theorem recover_eq_some_ecMul {x y k : Nat} (hon : onCurve x y = true) (hx : x < Config.n) (hk0 : k ≠ 0)
    (hkn : k < Config.n) : recover 0 x ((k * x) % Config.n) (y % 2) = some (ecMul k (.affine x y)) := by
  have := fact_p
  have hP : (Point.affine x y).onE := hon
  obtain ⟨Q, hQ, hQon, hE⟩ := recover_mul hon hx (k := k) (by rwa [Nat.mod_eq_of_lt hkn])
  rw [hQ, toE_inj hQon (onE_ecMul hP) (hE.trans (toE_ecMul (hkn.trans n_lt_word) hP).symm)]

theorem recover_eq_some_ecAdd {x y t : Nat} (hon : onCurve x y = true) (hx : x < Config.n) (ht : t < Config.n) :
    recover ((Config.n - (t * x) % Config.n) % Config.n) x x (y % 2) =
      some (ecAdd (.affine x y) (ecMul t gen)) := by
  have := fact_p
  have hP : (Point.affine x y).onE := hon
  have htG := onE_ecMul_gen t
  obtain ⟨Q, hQ, hQon, hE⟩ := recover_tweak hon hx (t := t)
  have hsum : (ecAdd (.affine x y) (ecMul t gen)).toE = Point.toE (.affine x y) + t • gen.toE := by
    rw [toE_ecAdd hP htG, toE_ecMul (ht.trans n_lt_word) onE_gen]
  rw [hQ, toE_inj hQon (onE_ecAdd hP htG) (hE.trans hsum.symm)]

theorem recover_eq_none_of_n_le {z r s v : Nat} (h : Config.n ≤ r) : recover z r s v = none :=
  recover_eq_none_of_cause (Or.inr (Or.inr (Or.inl h)))

/-! ## `RECOVER` (R111) -/

/-- Settles O43: `recover` fails for the six causes, and its steps give the formula otherwise. -/
theorem recoverResult : Obligations.RecoverResult := by
  intro pd ra rb rc v s
  refine ⟨decode_ofNat, fun h => ?_, fun y _ hr0 hrn hs0 hsn hon hy => completes_of_exec_eq_completePoint ?_⟩
  · exact congrArg (completeRecovery pd · s) (recover_eq_none_of_cause h)
  · rw [exec, execRecover, ← hy]
    exact congrArg (completeRecovery pd · s) (recover_of_onCurve hr0 hrn hs0 hsn hon)

/-! ## `ECMUL` and `MULG` (R113 to R116) -/

/-- The part of their rules that `ECMUL` and `MULG` share: the end of a command whose result is `k` times `(x, y)`. -/
def completeMultiple (pd : PIdx) (k x y : Nat) (s : State) : Host.Outcome State Fault Refusal :=
  if k = 0 then completePoint pd .O s
  else completeRecovery pd (recover 0 x ((k * x) % Config.n) (y % 2)) s

theorem execEcmul_of_affineCoords {pd pb : PIdx} {ra : WIdx} {s : State} {x y : Nat}
    (h : (s.readPt pb).affineCoords = some (x, y)) :
    execEcmul pd ra pb s = completeMultiple pd (s.scalar ra) x y s := by
  rw [execEcmul, h]
  rfl

theorem execMulg_eq (pd : PIdx) (ra : WIdx) (s : State) :
    execMulg pd ra s = completeMultiple pd (s.scalar ra) Config.gx Config.gy s := rfl

theorem completeMultiple_zero (pd : PIdx) (x y : Nat) (s : State) :
    completeMultiple pd 0 x y s = completePoint pd .O s := if_pos rfl

theorem completeMultiple_of_n_le {k x : Nat} (hk : k ≠ 0) (hx : Config.n ≤ x) (pd : PIdx) (y : Nat) (s : State) :
    completeMultiple pd k x y s = raise .recoveryFailure s := by
  rw [completeMultiple, if_neg hk, recover_eq_none_of_n_le hx, completeRecovery]

theorem completeMultiple_of_onCurve {k x y : Nat} (hon : onCurve x y = true) (hx : x < Config.n) (hk : k < Config.n)
    (pd : PIdx) (s : State) : completeMultiple pd k x y s = completePoint pd (ecMul k (.affine x y)) s := by
  by_cases hk0 : k = 0
  · have hP : (Point.affine x y).onE := hon
    rw [hk0, completeMultiple_zero, ecMul_zero hP]
  · rw [completeMultiple, if_neg hk0, recover_eq_some_ecMul hon hx hk0 hk, completeRecovery]

theorem scalar_lt_n (s : State) (i : WIdx) : s.scalar i < Config.n := Nat.mod_lt _ n_pos

theorem execEcmul_of_not_point {pd pb : PIdx} {ra : WIdx} {s : State}
    (h : (s.readPt pb).inf = true ∨ (s.readPt pb).valid = false) : execEcmul pd ra pb s = raise .invalidPoint s := by
  rw [execEcmul, affineCoords_of_not_point h]

/-- Settles O44: the operand is refused, or the end is that of a multiple of the operand. -/
theorem ecmulResult : Obligations.EcmulResult := by
  intro pd ra pb s
  refine ⟨decode_ofNat, execEcmul_of_not_point, fun hinf hv hk => completes_of_exec_eq_completePoint (P := .O) ?_,
    fun hinf hv hk hx => ?_, fun hinf hv hk hx => ⟨?_, completes_of_exec_eq_completePoint ?_⟩⟩
  all_goals have hexec := execEcmul_of_affineCoords (pd := pd) (ra := ra) (affineCoords_of_valid hinf hv)
  · rw [exec, hexec, State.scalar, State.int, hk, completeMultiple_zero]
  · exact hexec.trans (completeMultiple_of_n_le hk hx pd _ s)
  · rw [Ne, ecMul_mod_n_eq_O_iff _ ((valid_iff _).1 hv), toPoint_eq_O_iff]
    simp [hinf, hk]
  · rw [toPoint_of_inf_eq_false hinf]
    exact hexec.trans (completeMultiple_of_onCurve (onCurve_of_valid hinf hv) hx (scalar_lt_n s ra) pd s)

theorem gx_lt_n : Config.gx < Config.n := by decide

/-- Settles O45: `MULG` ends as `ECMUL` does on the coordinates of `G`, whose `x` is below `n`. -/
theorem mulgResult : Obligations.MulgResult := by
  intro pd ra s
  refine ⟨decode_ofNat, completes_of_exec_eq_completePoint ?_, fun pb hG => ?_⟩
  · calc execMulg pd ra s
        = completeMultiple pd (s.scalar ra) Config.gx Config.gy s := execMulg_eq pd ra s
      _ = completePoint pd (ecMul (s.scalar ra) gen) s :=
        completeMultiple_of_onCurve onE_gen gx_lt_n (scalar_lt_n s ra) pd s
  · have hcoords : (s.readPt pb).affineCoords = some (Config.gx, Config.gy) := by
      rw [affineCoords_eq_some_iff, hG, toPoint_toReg onE_gen]
      exact ⟨rfl, onE_gen⟩
    exact (execMulg_eq pd ra s).trans (execEcmul_of_affineCoords hcoords).symm

/-! ## `ECADD` (R119) -/

/-- On valid operands two ends are left: the refused doubling, and the sum. -/
theorem execEcadd_of_valid {pd pa pb : PIdx} {s : State} (h1 : (s.readPt pa).valid = true)
    (h2 : (s.readPt pb).valid = true) :
    ((s.readPt pa).inf = false ∧ (s.readPt pa).toPoint = (s.readPt pb).toPoint ∧
        execEcadd pd pa pb s = raise .unsupportedDoubling s) ∨
      (((s.readPt pa).inf = true ∨ (s.readPt pa).toPoint ≠ (s.readPt pb).toPoint) ∧
        execEcadd pd pa pb s = completePoint pd (ecAdd (s.readPt pa).toPoint (s.readPt pb).toPoint) s) := by
  obtain ⟨-, -, h⟩ := (execEcadd_cases pd pa pb s).resolve_left fun h => h.1 ⟨h1, h2⟩
  rwa [Ne, toPoint_eq_O_iff, Bool.not_eq_true] at h

/-- Settles O46: an invalid operand is refused, and of the two ends left each hypothesis excludes one. -/
theorem ecaddResult : Obligations.EcaddResult := by
  intro pd pa pb s
  refine ⟨decode_ofNat, fun h => ?_, fun h1 h2 hinf heq => ?_, fun h1 h2 h => completes_of_exec_eq_completePoint ?_⟩
  · rcases execEcadd_cases pd pa pb s with ⟨-, e⟩ | ⟨h1, h2, -⟩
    · exact e
    · simp [h1, h2] at h
  · rcases execEcadd_of_valid (pd := pd) h1 h2 with ⟨-, -, e⟩ | ⟨h, -⟩
    · exact e
    · simp [hinf, heq] at h
  · rcases execEcadd_of_valid (pd := pd) h1 h2 with ⟨hinf, heq, -⟩ | ⟨-, e⟩
    · simp [hinf, heq] at h
    · exact e

/-! ## `TWEAK` (R120, R121) -/

theorem execTweak_of_not_point {pd pa : PIdx} {rb : WIdx} {s : State}
    (h : (s.readPt pa).inf = true ∨ (s.readPt pa).valid = false) : execTweak pd pa rb s = raise .invalidPoint s := by
  rw [execTweak, affineCoords_of_not_point h]

theorem execTweak_of_affineCoords {pd pa : PIdx} {rb : WIdx} {s : State} {x y : Nat}
    (h : (s.readPt pa).affineCoords = some (x, y)) :
    execTweak pd pa rb s = completeRecovery pd
      (recover ((Config.n - (s.scalar rb * x) % Config.n) % Config.n) x x (y % 2)) s := by
  rw [execTweak, h]

/-- Settles O47: the operand is refused, or `recover` on the tuple of the command answers the sum. -/
theorem tweakResult : Obligations.TweakResult := by
  intro pd pa rb s
  refine ⟨decode_ofNat, execTweak_of_not_point, fun hinf hv hx => ?_,
    fun hinf hv hx => ⟨completes_of_exec_eq_completePoint ?_, ecAdd_eq_O_iff ((valid_iff _).1 hv) (onE_ecMul_gen _)⟩⟩
  all_goals have hexec := execTweak_of_affineCoords (pd := pd) (rb := rb) (affineCoords_of_valid hinf hv)
  · rw [recover_eq_none_of_n_le hx] at hexec
    exact hexec
  · rw [recover_eq_some_ecAdd (onCurve_of_valid hinf hv) hx (scalar_lt_n s rb)] at hexec
    rw [toPoint_of_inf_eq_false hinf]
    exact hexec

/-! ## What the commands do to one another (R122) -/

/-- `ECMUL` on a register that holds `G` leaves the multiple of `G`, as `MULG` does (R116). -/
theorem ecmul_of_readPt_eq_gen {s : State} {g : PIdx} (hG : s.readPt g = gen.toReg) (pd : PIdx) (ra : WIdx) :
    Completes (.ecmul pd ra g) s (WrotePoint s · pd (ecMul ((s.readW ra).toNat % Config.n) gen).toReg) := by
  obtain ⟨-, hmulg, hsame⟩ := mulgResult pd ra s
  obtain ⟨t, ht, hwrote⟩ := hmulg
  exact ⟨t, (hsame g hG).symm.trans ht, hwrote⟩

/-- Settles O48: the whole effects of the three commands, and the composition of multiples. -/
theorem scalarsCompose : Obligations.ScalarsCompose := by
  intro s s1 s2 s3 j1 j2 j3 g a b c hG h1 h2 hc h3
  obtain ⟨hP, -, hw, -, -, -⟩ := (ecmul_of_readPt_eq_gen hG j1 b).of_exec h1
  obtain ⟨herr3, hres3⟩ := (ecmul_of_readPt_eq_gen hG j3 c).wrotePoint h3
  obtain ⟨-, hbad, hzero, hhigh, hfull⟩ := ecmulResult j2 a j1 s1
  have ha : s1.readW a = s.readW a := by rw [State.readW, hw, ← State.readW]
  have hon := onE_ecMul_gen ((s.readW b).toNat % Config.n)
  have hpoint : (s1.readPt j1).toPoint = ecMul ((s.readW b).toNat % Config.n) gen := by rw [hP, toPoint_toReg hon]
  have hv : (s1.readPt j1).valid = true := by rw [hP, valid_toReg hon]
  have hinf : (s1.readPt j1).inf = true ↔ (s.readW b).toNat % Config.n = 0 := by
    rw [← toPoint_eq_O_iff, hpoint, ecMul_mod_n_eq_O_iff _ onE_gen]
    simp [gen]
  rw [ha] at hzero hhigh hfull
  refine ⟨fun hb => (hbad (Or.inl (hinf.2 hb))).err_eq h2, fun hb ha0 hx => ?_, fun hb h => ?_⟩
  all_goals rw [Ne, ← hinf, Bool.not_eq_true] at hb
  · exact (hhigh hb hv ha0 hx).err_eq h2
  · rw [hres3, hc, Nat.mod_mod, ← ecMul_ecMul _ _ onE_gen, ← hpoint]
    by_cases ha0 : (s.readW a).toNat % Config.n = 0
    · obtain ⟨herr, hres⟩ := (hzero hb hv ha0).wrotePoint h2
      refine ⟨herr, herr3, ?_⟩
      rw [hres, ha0, ecMul_zero ((valid_iff _).1 hv), toReg_O]
    · obtain ⟨herr, hres⟩ := (hfull hb hv ha0 (h.resolve_left ha0)).2.wrotePoint h2
      exact ⟨herr, herr3, hres⟩

/-- Settles O49: the whole effects of the three commands, where `ECADD` sees `P` and `t G`. -/
theorem tweakIdentity : Obligations.TweakIdentity := by
  intro s s1 s2 u q d pa e b hq hv h1 h2 hu
  obtain ⟨-, hmulg, -⟩ := mulgResult q b s
  obtain ⟨hQ, hother, -⟩ := hmulg.of_exec h1
  obtain ⟨-, -, hsame, hsum⟩ := ecaddResult d pa q s1
  obtain ⟨-, hbad, hhigh, hfull⟩ := tweakResult e pa b s
  have hon := onE_ecMul_gen ((s.readW b).toNat % Config.n)
  have hvq : (s1.readPt q).valid = true := by rw [hQ, valid_toReg hon]
  rw [hvq, hother pa hq.symm, hQ, toPoint_toReg hon] at hsame hsum
  have hsum_of_ne (hinf : (s.readPt pa).inf = false) (hne : s1.readPt q ≠ s.readPt pa) : s2.err = 0 ∧
      s2.readPt d = (ecAdd (s.readPt pa).toPoint (ecMul ((s.readW b).toNat % Config.n) gen)).toReg := by
    rw [Ne, hQ, toReg_eq_iff hon hinf] at hne
    exact (hsum hv rfl (Or.inr (Ne.symm hne))).wrotePoint h2
  refine ⟨fun hinf => ⟨(hbad (Or.inl hinf)).err_eq hu, ?_⟩,
    fun hinf hx => ⟨(hhigh hinf hv hx).err_eq hu, hsum_of_ne hinf⟩, fun hinf hx heq => ?_, fun hinf hx hne => ?_⟩
  · obtain ⟨herr, hres⟩ := (hsum hv rfl (Or.inl hinf)).wrotePoint h2
    refine ⟨herr, ?_⟩
    rw [hres, (toPoint_eq_O_iff _).2 hinf, ecAdd, hQ]
  · obtain ⟨herr, hres⟩ := (hfull hinf hv hx).1.wrotePoint hu
    rw [hQ, toReg_eq_iff hon hinf] at heq
    refine ⟨(hsame hv rfl hinf heq.symm).err_eq h2, herr, ?_⟩
    rw [hres, heq]
  · obtain ⟨herr2, hres2⟩ := hsum_of_ne hinf hne
    obtain ⟨herr, hres⟩ := (hfull hinf hv hx).1.wrotePoint hu
    exact ⟨herr2, herr, hres.trans hres2.symm⟩

end Sys2Proof.Machine
end

section
/-! The point codec (R130 to R132). The parity travels as bit 0 of a `y`, as `T`, and as bit 0 of an immediate; the
round trips follow from the whole effects of the two commands. -/

namespace Sys2Proof.Machine

open Sys2Proof

/-! ## Bit 0 as the parity (R130, R131) -/

theorem getLsbD_zero_eq_parity {k : Nat} (a : BitVec k) : a.getLsbD 0 = (a.toNat % 2 == 1) := by
  rw [BitVec.getLsbD, Nat.testBit_zero, beq_eq_decide]

theorem getLsbD_zero_eq_iff {k l : Nat} (a : BitVec k) (b : BitVec l) :
    a.getLsbD 0 = b.getLsbD 0 ↔ a.toNat % 2 = b.toNat % 2 := by
  rw [getLsbD_zero_eq_parity, getLsbD_zero_eq_parity, Bool.eq_iff_iff, beq_iff_eq, beq_iff_eq]
  omega

/-- An immediate below 2 has the zero bits that the format `PWI` asks for (R64). -/
theorem wf_decompress_of_lt_two {imm : BitVec 8} (h : imm.toNat < 2) (pd : PIdx) (ra : WIdx) :
    (Instr.decompress pd ra imm).wf = true := by
  have hdiv : imm.toNat / 2 = 0 := Nat.div_eq_of_lt h
  rw [Instr.wf, beq_iff_eq]
  apply BitVec.eq_of_toNat_eq
  simp [Nat.shiftRight_eq_div_pow, hdiv]

/-! ## `COMPRESS` (R130) -/

theorem execCompress_of_not_point {rd : WIdx} {pa : PIdx} {s : State}
    (h : (s.readPt pa).inf = true ∨ (s.readPt pa).valid = false) : execCompress rd pa s = raise .invalidPoint s := by
  rw [execCompress, affineCoords_of_not_point h]

/-- The end of `COMPRESS` on a Point that is not the identity, said by its record: `x` and bit 0 of `y`. -/
theorem execCompress_of_valid {rd : WIdx} {pa : PIdx} {s : State} (hinf : (s.readPt pa).inf = false)
    (hv : (s.readPt pa).valid = true) : execCompress rd pa s =
      .next (((s.setT ((s.readPt pa).y.getLsbD 0)).writeW rd (s.readPt pa).x).setErr 0) := by
  rw [execCompress, affineCoords_of_valid hinf hv]
  simp only [completeWord_eq, getLsbD_zero_eq_parity, BitVec.ofNat_toNat, BitVec.setWidth_eq]

/-- Settles O50: the operand is refused, or the state is written at `W[rd]`, `T` and `ERR`. -/
theorem compressResult : Obligations.CompressResult := by
  intro rd pa s
  refine ⟨decode_ofNat, execCompress_of_not_point, fun hinf hv => ⟨_, execCompress_of_valid hinf hv, ?_⟩⟩
  exact ⟨State.readW_writeW_self _ rd _, rfl, fun k hk => State.readW_writeW_ne _ _ hk, rfl, rfl, rfl, rfl, rfl⟩

/-! ## `DECOMPRESS` (R131) -/

/-- A square under an `x` below `p` gives a point of either parity, and its `y` fits a register (R26). -/
theorem exists_word_onCurve {x par : Nat} (hpar : par < 2) (hx : x < Config.p) (hsq : IsSquareModP (x * x * x + 7)) :
    ∃ y : Word, onCurve x y.toNat = true ∧ y.toNat % 2 = par := by
  have := fact_p
  have hsome : liftX x par ≠ none := by
    rw [Ne, liftX_eq_none_iff_not_square x hpar, not_or, not_not]
    exact ⟨not_le.2 hx, hsq⟩
  obtain ⟨Q, hQ⟩ := Option.ne_none_iff_exists'.1 hsome
  obtain ⟨y, -, hon, hy⟩ := liftX_sound hpar hQ
  refine ⟨BitVec.ofNat 256 y, ?_⟩
  rw [toNat_ofNat_word (((onCurve_iff x y).1 hon).2.1.trans p_lt_word)]
  exact ⟨hon, hy⟩

/-- The point whose `y` has the immediate's parity is the one that is written. -/
theorem completes_decompress_of_onCurve {ra : WIdx} {imm : BitVec 8} {s : State} {y : Word}
    (hon : onCurve (s.readW ra).toNat y.toNat = true) (hpar : y.getLsbD 0 = imm.getLsbD 0) (pd : PIdx) :
    Completes (.decompress pd ra imm) s (WrotePoint s · pd { inf := false, x := s.readW ra, y := y }) := by
  have := fact_p
  have hlift : liftX (s.int ra) (imm.toNat % 2) = some (.affine (s.readW ra).toNat y.toNat) := by
    rw [← (getLsbD_zero_eq_iff y imm).1 hpar]
    exact liftX_of_onCurve hon
  have hreg : (Point.affine (s.readW ra).toNat y.toNat).toReg = { inf := false, x := s.readW ra, y := y } := by
    simp [Point.toReg]
  rw [← hreg]
  apply completes_of_exec_eq_completePoint
  rw [exec, execDecompress, hlift]

/-- Settles O51: `lift_x` fails where no point has that `x`, and otherwise answers the one of the asked parity. -/
theorem decompressResult : Obligations.DecompressResult := by
  intro pd ra imm s
  have hpar : imm.toNat % 2 < 2 := Nat.mod_lt _ two_pos
  refine ⟨fun himm => decode_ofNat (wf_decompress_of_lt_two himm pd ra), fun h => ?_, fun hx hsq => ?_⟩
  · rw [Fails, exec, execDecompress, State.int, (liftX_eq_none_iff_not_square _ hpar).2 h]
    rfl
  · obtain ⟨y, hon, hy⟩ := exists_word_onCurve hpar hx hsq
    have hbit : y.getLsbD 0 = imm.getLsbD 0 := (getLsbD_zero_eq_iff y imm).2 hy
    exact ⟨y, hon, hbit, completes_decompress_of_onCurve hon hbit pd⟩

/-! ## The round trips (R132) -/

/-- What a `DECOMPRESS` that completes has written: the record of a Point with that `x` and parity. -/
theorem exists_readPt_of_decompress {s t : State} {pd : PIdx} {ra : WIdx} {imm : BitVec 8}
    (h : exec (.decompress pd ra imm) s = .next t) (herr : t.err = 0) : ∃ y : Word,
      onCurve (s.readW ra).toNat y.toNat = true ∧ y.getLsbD 0 = imm.getLsbD 0 ∧
        t.readPt pd = { inf := false, x := s.readW ra, y := y } := by
  obtain ⟨-, hfails, hcompletes⟩ := decompressResult pd ra imm s
  have hok : ¬ (Config.p ≤ (s.readW ra).toNat ∨
      ¬ IsSquareModP ((s.readW ra).toNat * (s.readW ra).toNat * (s.readW ra).toNat + 7)) := by
    intro hbad
    have h2 := (hfails hbad).err_eq h
    rw [herr] at h2
    exact absurd h2 (by decide)
  rw [not_or, not_le, not_not] at hok
  obtain ⟨y, hon, hy, hwrote⟩ := hcompletes hok.1 hok.2
  exact ⟨y, hon, hy, (hwrote.wrotePoint h).2⟩

/-- Settles O52: each command runs on what the other's whole effect says it left. -/
theorem codecRoundTrips : Obligations.CodecRoundTrips := by
  constructor
  · intro s s1 s2 rd pa pd imm hinf hv h1 himm h2
    obtain ⟨-, -, hcompress⟩ := compressResult rd pa s
    obtain ⟨hx, ht, -⟩ := (hcompress hinf hv).of_exec h1
    have hon : onCurve (s1.readW rd).toNat (s.readPt pa).y.toNat = true := by
      rw [hx]
      exact onCurve_of_valid hinf hv
    have hres := (completes_decompress_of_onCurve hon (ht.symm.trans himm.symm) pd).wrotePoint h2
    rwa [hx, ← hinf] at hres
  · intro s s1 s2 pd ra rd imm h1 herr h2
    obtain ⟨y, hon, hy, hpt⟩ := exists_readPt_of_decompress h1 herr
    obtain ⟨-, -, hcompress⟩ := compressResult rd pd s1
    rw [hpt] at hcompress
    obtain ⟨hx, ht, -, -, herr2, -⟩ := (hcompress rfl hon).of_exec h2
    exact ⟨herr2, hx, ht.trans hy⟩

end Sys2Proof.Machine
end

section
/-! Negation (R140 to R142). Either command is an end with the negative of its operand, so what two of them do to one
another is a law of that negative: of an integer modulo `n`, and of a Point of the curve. -/

namespace Sys2Proof.Machine

open Sys2Proof

/-! ## `NEGP` (R142) -/

theorem execNegp_eq (pd pa : PIdx) (s : State) :
    execNegp pd pa s = completePoint pd (negpPoint (s.readPt pa).toPoint) s := by
  rw [execNegp]
  cases (s.readPt pa).toPoint <;> rfl

/-- A valid operand is negated as R21 says. -/
theorem completes_negp_of_valid {pa : PIdx} {s : State} (hv : (s.readPt pa).valid = true) (pd : PIdx) :
    Completes (.negp pd pa) s (WrotePoint s · pd (ecNeg (s.readPt pa).toPoint).toReg) := by
  rw [← negpPoint_of_onE ((valid_iff _).1 hv)]
  exact completes_of_exec_eq_completePoint (execNegp_eq pd pa s)

/-- The negative in the group is an involution. -/
theorem ecNeg_ecNeg {P : Point} (hP : P.onE) : ecNeg (ecNeg P) = P := by
  have := fact_p
  have hN := onE_ecNeg hP
  refine toE_inj (onE_ecNeg hN) hP ?_
  rw [toE_ecNeg hN, toE_ecNeg hP, neg_neg]

/-- The point `NEGP` writes, as a record: `x` bit for bit, and a `y` that is reduced and so fits the register. -/
theorem toReg_negpPoint_of_inf_eq_false {r : PointReg} (h : r.inf = false) :
    (negpPoint r.toPoint).toReg =
      { inf := false, x := r.x, y := BitVec.ofNat 256 ((Config.p - r.y.toNat % Config.p) % Config.p) } := by
  rw [toPoint_of_inf_eq_false h, negpPoint, Point.toReg, BitVec.ofNat_toNat, BitVec.setWidth_eq]

/-- Settles O54: the two records are those of `negpPoint`; on valid points the command is the group's negative, an
involution. -/
theorem negpResult : Obligations.NegpResult := by
  intro pd pa s
  have hexec := completes_of_exec_eq_completePoint (i := .negp pd pa) (execNegp_eq pd pa s)
  refine ⟨decode_ofNat, fun hinf => ?_, fun hinf => ?_, fun hv t u ht hu => ?_⟩
  · rw [(toPoint_eq_O_iff _).2 hinf] at hexec
    exact hexec
  · rw [toReg_negpPoint_of_inf_eq_false hinf] at hexec
    exact ⟨_, toNat_ofNat_word (mod_p_lt _), hexec⟩
  · have := fact_p
    have hon : (s.readPt pa).toPoint.onE := (valid_iff _).1 hv
    obtain ⟨-, hneg⟩ := (completes_negp_of_valid hv pd).wrotePoint ht
    have hvt : (t.readPt pd).valid = true := by rw [hneg, valid_toReg (onE_ecNeg hon)]
    obtain ⟨-, htwice⟩ := (completes_negp_of_valid hvt pd).wrotePoint hu
    refine ⟨hneg, hvt, ?_⟩
    rw [htwice, hneg, toPoint_toReg (onE_ecNeg hon), ecNeg_ecNeg hon, toPoint_toReg hon]

/-! ## `NEGS` (R141) -/

theorem completes_negs (rd ra : WIdx) (s : State) :
    Completes (.negs rd ra) s (WroteWord s · rd ((Config.n - (s.readW ra).toNat % Config.n) % Config.n)) :=
  completes_of_exec_eq_completeWord rfl (mod_n_lt _)

/-- The negative of the negative is the remainder: 0 is its own negative, and any other remainder stays below `m`. -/
theorem neg_mod_neg_mod {m : Nat} (hm : 0 < m) (a : Nat) : (m - (m - a % m) % m % m) % m = a % m := by
  have hlt : a % m < m := Nat.mod_lt a hm
  rcases Nat.eq_zero_or_pos (a % m) with h0 | hpos
  · simp [h0]
  · have hneg : m - a % m < m := Nat.sub_lt hm hpos
    rw [Nat.mod_mod, Nat.mod_eq_of_lt hneg, Nat.sub_sub_self hlt.le, Nat.mod_mod]

/-- Settles O53: the whole effect of the command, taken twice. -/
theorem negsResult : Obligations.NegsResult := by
  intro rd ra s
  refine ⟨decode_ofNat, completes_negs rd ra s, fun t u ht hu => ?_⟩
  obtain ⟨hneg, -⟩ := (completes_negs rd ra s).of_exec ht
  obtain ⟨htwice, -⟩ := (completes_negs rd rd t).of_exec hu
  rw [htwice, hneg, neg_mod_neg_mod n_pos]

end Sys2Proof.Machine
end

section
/-! Errors and the order of checks (R150 to R162, R177). That a failure writes `ERR` alone is read off `CommandEffect`;
which code a command can leave there is read off the inversion lemma of its meaning. -/

namespace Sys2Proof.Machine

open Sys2Proof

/-! ## Words that are no command (R67, R160) -/

theorem exists_row_of_mnemonic (i : Instr) : ∃ r ∈ opcodeTable, i.mnemonic = r.mnemonic := by
  cases i <;> simp only [Instr.mnemonic] <;> decide

/-- The decoder refuses what the mask table refuses (R73). -/
theorem exists_decode_error_of_no_row {c : CmdWord} (h : ∀ r ∈ opcodeTable, c &&& r.mask ≠ r.pattern) :
    ∃ e, decode c = .error e := by
  cases hd : decode c with
  | error e => exact ⟨e, rfl⟩
  | ok i =>
    obtain ⟨r, hr, hi⟩ := exists_row_of_mnemonic i
    exact absurd ((decodeIsTheMaskTable c r hr).2 ⟨i, hd, hi⟩) (h r hr)

/-- Settles O11: a word without a row is not decoded, and the report of that writes `CMD` and `ERR` alone. -/
theorem illegalWordReportsSixOnly : Obligations.IllegalWordReportsSixOnly := by
  intro s c rest h
  obtain ⟨e, hd⟩ := exists_decode_error_of_no_row h
  rw [step_write_cmd, issue_of_decode_error hd]
  rfl

/-! ## The block always answers (R162) -/

theorem exists_exec_eq_next (i : Instr) (s : State) : ∃ t, exec i s = .next t :=
  (exists_command_effect i s).imp fun _ h => h.1

theorem exists_issue_eq_next (c : CmdWord) (s : State) : ∃ t, issue c s = .next t := by
  cases hd : decode c with
  | error e => exact ⟨_, issue_of_decode_error hd s⟩
  | ok i =>
    rw [issue_of_decode_ok hd]
    exact exists_exec_eq_next i _

theorem exists_hostAct_eq_next {a : HostAction} (ha : a.isAdmitted = true) (s : State) :
    ∃ t, hostAct a s = .next t := by
  cases a with
  | read off => exact ⟨_, if_pos ha⟩
  | write off v =>
    obtain rfl | hoff := eq_or_ne off 0x000
    · exact exists_issue_eq_next v s
    · exact ⟨_, hostWrite_of_ne_cmd s v ha hoff⟩
  | otherWidth => exact absurd ha Bool.false_ne_true
  | reset => exact ⟨_, rfl⟩

/-- Settles O19: of the host's actions only a write to `CMD` runs a command, and every command answers. -/
theorem theBlockNeverGetsStuck : Obligations.TheBlockNeverGetsStuck := by
  refine ⟨exists_exec_eq_next, fun s a rest hs ha => ?_⟩
  rw [step, hostStep, hs]
  exact exists_hostAct_eq_next ha _

/-! ## A failure writes `ERR` alone (R153, R156, R157) -/

/-- Settles O25: of the five effects only the failure leaves a code other than 0. -/
theorem failingCommandChangesOnlyErr : Obligations.FailingCommandChangesOnlyErr := by
  intro i s t h herr
  cases command_effect h with
  | failed => rfl
  | word | wordFlag | flag | point => exact absurd rfl herr

/-- Settles O29: the second run finds the operands of the first, so it reports the same code, and `ERR` is all it
writes. -/
theorem retryFailsAgain : Obligations.RetryFailsAgain := by
  intro i s t h herr
  have hst := failingCommandChangesOnlyErr i s t h herr
  obtain ⟨u, hu⟩ := exists_exec_eq_next i t
  obtain ⟨hsame, -⟩ :=
    commandReadsOnlyItsSources i s t t u (fun _ _ => by rw [hst]; rfl) (fun _ _ => by rw [hst]; rfl) h hu
  have hut : u = t := by
    rw [failingCommandChangesOnlyErr i t u hu (hsame ▸ herr), ← hsame]
  rw [hu, hut]

/-! ## The table of codes (R150) -/

/-- The commands that may report an error, as the table of R150 lists them; a word that is no command has no name
there. -/
@[simp] def ErrKind.commands : ErrKind → List String
  | .invalidPoint => ["ECMUL", "ECADD", "TWEAK", "COMPRESS"]
  | .notOnCurve => ["DECOMPRESS"]
  | .zeroInverse => ["INV.P", "INV.N"]
  | .unsupportedDoubling => ["ECADD"]
  | .recoveryFailure => ["RECOVER", "ECMUL", "TWEAK"]
  | .illegalCommand => []
  | .badModulus => ["MODEXP"]

/-- The command `i` completed in `t`, or reported there an error whose row of R150 lists `i`. -/
def EndsAsListed (i : Instr) (t : State) : Prop :=
  t.err = 0 ∨ ∃ e : ErrKind, i.mnemonic ∈ e.commands ∧ t.err = e.code

theorem endsAsListed_of_completeRecovery {i : Instr} {pd : PIdx} {Q : Option Point} {s t : State}
    (h : completeRecovery pd Q s = .next t) (hi : i.mnemonic ∈ ErrKind.recoveryFailure.commands) :
    EndsAsListed i t := by
  cases Q with
  | none =>
    cases h
    exact Or.inr ⟨_, hi, rfl⟩
  | some P =>
    cases h
    exact Or.inl rfl

theorem endsAsListed_of_inverseMod {i : Instr} {m : Nat} {rd ra : WIdx} {s t : State}
    (h : inverseMod m rd ra s = .next t) (hi : i.mnemonic ∈ ErrKind.zeroInverse.commands) : EndsAsListed i t := by
  rcases inverseMod_cases m rd ra s with ⟨-, e⟩ | ⟨-, e⟩ <;> cases h.symm.trans e
  · exact Or.inr ⟨_, hi, rfl⟩
  · exact Or.inl rfl

theorem exec_endsAsListed {i : Instr} {s t : State} (h : exec i s = .next t) : EndsAsListed i t := by
  cases i with
  | addP | addN | subP | subN | mulP | mulN | redP | redN | negs | eqP | eqN | parP | parN =>
    cases h
    exact Or.inl rfl
  | modexp rd ra rb rc =>
    rcases execModexp_cases rd ra rb rc s with ⟨-, e⟩ | ⟨-, e⟩ <;> cases h.symm.trans e
    · exact Or.inr ⟨.badModulus, by simp [Instr.mnemonic], rfl⟩
    · exact Or.inl rfl
  | invP | invN => exact endsAsListed_of_inverseMod h (by simp [Instr.mnemonic])
  | recover => exact endsAsListed_of_completeRecovery h (by simp [Instr.mnemonic])
  | ecmul pd ra pb =>
    rcases execEcmul_cases pd ra pb s with ⟨-, e⟩ | ⟨x, y, -, ⟨-, e⟩ | ⟨-, e⟩⟩
    · cases h.symm.trans e
      exact Or.inr ⟨.invalidPoint, by simp [Instr.mnemonic], rfl⟩
    · cases h.symm.trans e
      exact Or.inl rfl
    · exact endsAsListed_of_completeRecovery (e.symm.trans h) (by simp [Instr.mnemonic])
  | mulg pd ra =>
    obtain ⟨-, hcompletes, -⟩ := mulgResult pd ra s
    exact Or.inl (hcompletes.wrotePoint h).1
  | ecadd pd pa pb =>
    rcases execEcadd_cases pd pa pb s with ⟨-, e⟩ | ⟨-, -, ⟨-, -, e⟩ | ⟨-, e⟩⟩ <;> cases h.symm.trans e
    · exact Or.inr ⟨.invalidPoint, by simp [Instr.mnemonic], rfl⟩
    · exact Or.inr ⟨.unsupportedDoubling, by simp [Instr.mnemonic], rfl⟩
    · exact Or.inl rfl
  | tweak pd pa rb =>
    rcases execTweak_cases pd pa rb s with ⟨-, e⟩ | ⟨x, y, -, e⟩
    · cases h.symm.trans e
      exact Or.inr ⟨.invalidPoint, by simp [Instr.mnemonic], rfl⟩
    · exact endsAsListed_of_completeRecovery (e.symm.trans h) (by simp [Instr.mnemonic])
  | compress rd pa =>
    rcases execCompress_cases rd pa s with ⟨-, e⟩ | ⟨x, y, -, e⟩ <;> cases h.symm.trans e
    · exact Or.inr ⟨.invalidPoint, by simp [Instr.mnemonic], rfl⟩
    · exact Or.inl rfl
  | decompress pd ra imm =>
    rcases execDecompress_cases pd ra imm s with ⟨-, e⟩ | ⟨P, -, e⟩ <;> cases h.symm.trans e
    · exact Or.inr ⟨.notOnCurve, by simp [Instr.mnemonic], rfl⟩
    · exact Or.inl rfl
  | negp pd pa =>
    rw [exec, execNegp_eq] at h
    cases h
    exact Or.inl rfl

/-- Settles O28: the code says which row of the table applies, and no row of a decoded command has code 6. -/
theorem errorCodesByCommand : Obligations.ErrorCodesByCommand := by
  intro i s t h
  rcases exec_endsAsListed h with h0 | ⟨e, hi, he⟩
  · simp [h0]
  · rw [he]
    cases e with
    | illegalCommand => exact absurd hi List.not_mem_nil
    | invalidPoint | notOnCurve | zeroInverse | unsupportedDoubling | recoveryFailure | badModulus =>
      simpa [ErrKind.code] using hi

/-! ## Which check comes first (R154, R177) -/

/-- Settles O30: each clause is one of the whole effects of the three commands, for these operands. -/
theorem orderOfChecks : Obligations.OrderOfChecks := by
  intro s pd j k
  obtain ⟨-, hmulBad, hmulZero, -⟩ := ecmulResult pd k j s
  obtain ⟨-, haddBad, haddSame, haddSum⟩ := ecaddResult pd j j s
  obtain ⟨-, -, htweakHigh, -⟩ := tweakResult pd j k s
  refine ⟨fun _ hinf => hmulBad (Or.inl hinf), fun hk hinf hv _ => hmulZero hinf hv hk,
    fun hv => haddBad (Or.inl hv), fun hv hinf => haddSame hv hv hinf rfl, fun hinf => ?_, htweakHigh⟩
  have hv : (s.readPt j).valid = true := by simp [PointReg.valid, hinf]
  have hsum := haddSum hv hv (Or.inl hinf)
  rwa [(toPoint_eq_O_iff _).2 hinf] at hsum

end Sys2Proof.Machine
end

section
/-! The reset input (R170, R171). -/

namespace Sys2Proof.Machine

open Sys2Proof

/-- Settles O2: the step hands the reset input to the block, which keeps only the host's list and what it has read. -/
theorem resetInputResetsTheBlock : Obligations.ResetInputResetsTheBlock := fun s rest => calc
  step { s with host := .reset :: rest }
  _ = hostAct .reset { s with host := rest } := step_cons s .reset rest
  _ = .next (State.resetBlock { s with host := rest }) := by rw [hostAct]
  _ = .next { State.reset with host := rest, received := s.received } := by rw [State.resetBlock]

end Sys2Proof.Machine
end
